-- ==== Sys2Proof/Word.lean ====
section
/-! DEFINITION. The word types of the core: 32-bit registers and bus (R8), bytes of the two byte buffers (R36), and the
21-bit offset within the host window (R8, R50). -/

namespace Sys2Proof

/-- A register, a codeword, a host transfer: 32 bits (R8). -/
abbrev Word := BitVec 32

/-- An element of TEXT_BUF or PCM_BUF (R36). -/
abbrev Byte := BitVec 8

/-- A host address within the core's 2 MiB window (R8, R50). -/
abbrev Offset := BitVec 21

end Sys2Proof
end

