-- ==== Sys2Proof/Syntax.lean ====
section
/-! DEFINITION. The commands, one constructor per row of spec/opcode_table.json. A command has no operand fields (R80, R85):
it takes its operands from ARG0, ARG1 and ARG2. -/

namespace Sys2Proof

/-- The ten commands, in the order of the opcode map (R81). -/
inductive Instr where
  /-- No operation (R100). -/
  | nop
  /-- The 10-bit CRC of a 21-bit message (R101). -/
  | crc
  /-- The even-parity bit of a word (R103). -/
  | parity
  /-- Assemble a codeword (R120). -/
  | enccw
  /-- Pack text into message words (R145). -/
  | encascii
  /-- The address offset (R161). -/
  | addroff
  /-- Build a transmission (R168). -/
  | enctx
  /-- A transmission's length (R171). -/
  | txlen
  /-- The PCM byte count (R191). -/
  | pcmlen
  /-- Modulate words into PCM (R198). -/
  | pcmenc
deriving DecidableEq, Repr

end Sys2Proof
end

