-- ==== Sys2Proof/Decode.lean ====
section
/-! DEFINITION. The decoder of command words, total on every 32-bit value and rejecting by name (R80–R84), then the encoder
from the opcode map (R81), and the host's view of the decoder. -/

namespace Sys2Proof

/-- Why a command word is illegal (R83, R222). -/
inductive Illegal where
  /-- `v[31:4] ≠ 0`. -/
  | rsvdNonzero
  /-- `v[3:0]` is `0xA` to `0xF`. -/
  | reservedOpcode
deriving DecidableEq, Repr

/-- What a command word decodes to. -/
inductive Decoded where
  | instr (i : Instr)
  | illegal (why : Illegal)
deriving DecidableEq, Repr

/-- The RSVD field, bits 31:4 (R22, R80). -/
def rsvdField (v : Word) : BitVec 28 := v.extractLsb' 4 28

/-- The OPCODE field, bits 3:0 (R22, R80). -/
def opcodeField (v : Word) : BitVec 4 := v.extractLsb' 0 4

/-- The opcode map read from number to command (R81); `0xA` to `0xF` are reserved. -/
def ofOpcode (n : BitVec 4) : Option Instr :=
  match n.toNat with
  | 0x0 => some .nop
  | 0x1 => some .crc
  | 0x2 => some .parity
  | 0x3 => some .enccw
  | 0x4 => some .encascii
  | 0x5 => some .addroff
  | 0x6 => some .enctx
  | 0x7 => some .txlen
  | 0x8 => some .pcmlen
  | 0x9 => some .pcmenc
  | _ => none

/-- The decoder (R82, R83). -/
def decode (v : Word) : Decoded :=
  if rsvdField v = 0#28 then
    match ofOpcode (opcodeField v) with
    | some i => .instr i
    | none => .illegal .reservedOpcode
  else .illegal .rsvdNonzero

/-- The opcode map read from command to number (R81). -/
def opcode : Instr → BitVec 4
  | .nop => 0x0#4
  | .crc => 0x1#4
  | .parity => 0x2#4
  | .enccw => 0x3#4
  | .encascii => 0x4#4
  | .addroff => 0x5#4
  | .enctx => 0x6#4
  | .txlen => 0x7#4
  | .pcmlen => 0x8#4
  | .pcmenc => 0x9#4

/-- The encoder: RSVD 31:4 zero, OPCODE 3:0 (R80, R81). -/
def encode (i : Instr) : Word := 0#28 ++ opcode i

/-- The instruction of a decoded word, if it is one. -/
def Decoded.toOption : Decoded → Option Instr
  | .instr i => some i
  | .illegal _ => none

/-- A command word of `nbits` bits numbered as spec/opcode_table.json numbers them. A command is one 32-bit word (R80), so a
number with a bit above 31 is no command word. -/
def decodeTableWord (nbits w : Nat) : Option Instr :=
  if w % 2 ^ nbits < 2 ^ 32 then (decode (BitVec.ofNat 32 (w % 2 ^ nbits))).toOption else none

end Sys2Proof
end

