-- ==== Sys2Proof/Config.lean ====
section
/-! DEFINITION. What is fixed for the machine: the normative constants of R6, the implementation's parameters of R7 as
plain data, and the one free value of the spec, the draw of R55. -/

namespace Sys2Proof.Config

/-! ## The constants of R6 -/

/-- `SYNC`, the word that starts every batch (R6, R92). -/
def sync : Word := 0x7CD215D8#32

/-- `IDLE`, the padding and terminator word (R6, R93). -/
def idle : Word := 0x7A89C197#32

/-- The preamble word (R6, R94). -/
def preambleWord : Word := 0xAAAAAAAA#32

/-- The preamble's 576 bits are 18 words (R6, R94). -/
def preambleWords : Nat := 18

/-- `BATCH_SIZE`: words per batch (R6). -/
def batchSize : Nat := 16

/-- `FRAME_SIZE`: words per frame (R6). -/
def frameSize : Nat := 2

/-- `DATA_BITS`: text bits per message word (R6). -/
def dataBits : Nat := 20

/-- `CHAR_BITS`: bits per character (R6). -/
def charBits : Nat := 7

/-- `GEN`, the generator polynomial, written in the width of the dividend of R101 (R6). -/
def gen : BitVec 31 := 0b11101101001#31

/-- `SYMBOL_RATE` in Hz (R6). -/
def symbolRate : Nat := 38400

/-- `LEVEL0`, the sample of a 0 bit: +16383 (R6, R10). -/
def level0 : BitVec 16 := BitVec.ofInt 16 16383

/-- `LEVEL1`, the sample of a 1 bit: -16383 (R6, R10). -/
def level1 : BitVec 16 := BitVec.ofInt 16 (-16383)

/-- `ADDR_MAX`, also the largest 21-bit message and payload (R6, R87). -/
def addrMax : Nat := 0x1FFFFF

/-- The largest batch position ENCASCII takes (R87). -/
def offsetMax : Nat := 15

/-- `FLAG_MESSAGE`: payload bit 20 (R6). -/
def flagMessage : BitVec 21 := 0x100000#21

/-- `FUNC_TEXT`: the function bits of an address payload (R6, R163). -/
def funcText : BitVec 21 := 0b11#21

/-- The largest value a result register holds (R226). -/
def resultMax : Nat := 0xFFFFFFFF

/-! ## The parameters of R7 -/

/-- The implementation's parameters (R7). "The model takes each as an argument": they are a field of State that no step
changes, so a statement about every state is a statement about every implementation. `LATENCY` is not among them: R7 says
it is not modelled (see the schedule in State). -/
structure Params where
  /-- `CORE_BASE`: platform address of the window. -/
  coreBase : Nat
  /-- `TEXT_MAX`: capacity of TEXT_BUF in bytes. -/
  textMax : Nat
  /-- `WORD_MAX`: capacity of WORD_BUF in words. -/
  wordMax : Nat
  /-- `PCM_MAX`: capacity of PCM_BUF in bytes. -/
  pcmMax : Nat
deriving DecidableEq, Repr

/-- The parameters State.reset holds: the capacities of the spec's own programs (95_test_vectors.md §3). DESIGN CHOICE
(log 1, unsafe): R7 leaves all four OPEN. -/
def referenceParams : Params := { coreBase := 0, textMax := 256, wordMax := 64, pcmMax := 131072 }

/-! ## The free value -/

/-- The draw of R55: what the `n`-th host read finds in the unwritten elements it covers, "any value, chosen afresh at each
read and under no law". It has no body, so nothing can be proved about its value (log 4). -/
opaque draw : Nat → Word

end Sys2Proof.Config
end

