-- ==== Sys2Proof/Machine/State.lean ====
section
/-! DEFINITION. The state of the core as plain data (R20–R40), its reset value (R40, R250), and the reasons a step stops. -/

namespace Sys2Proof.Machine

/-- The six registers (R21). -/
inductive Reg where
  | cmd
  | status
  | arg0
  | arg1
  | arg2
  | res0
deriving DecidableEq, Repr

/-- The command errors of R220, `NONE` apart. -/
inductive ErrCode where
  /-- Code 1: reserved opcode or RSVD ≠ 0 (R222). -/
  | illegalCmd
  /-- Code 2: an operand outside its documented domain (R223). -/
  | argRange
  /-- Code 3: an unusable sample or baud rate (R224). -/
  | rate
  /-- Code 4: an input or output that does not fit its buffer (R225). -/
  | bufOverflow
  /-- Code 5: a result above 32 bits (R226). -/
  | arithOverflow
deriving DecidableEq, Repr

/-- The fault marks of R39 and R229, `none` apart. -/
inductive FaultMark where
  /-- A host access broke R58. -/
  | busFault
  /-- A host access other than a STATUS read while Busy (R239). -/
  | hostProtocol
  /-- A command read an unwritten buffer element (R56). -/
  | uninitRead
deriving DecidableEq, Repr

/-- The core's phase (R37). -/
inductive Phase where
  | ready
  /-- The command word and the three operands latched at command start (R42). -/
  | busy (op a0 a1 a2 : Word)
deriving DecidableEq, Repr

/-- One entry of the schedule: what happens next at the core's boundary (R20, R53, R262; log 2). -/
inductive Event where
  /-- The Host's `MemRead(off, size)` (R53, R55). -/
  | read (off : Offset) (size : Nat)
  /-- The Host's `MemWrite(off, size, v)` (R53, R54). -/
  | write (off : Offset) (size : Nat) (v : Word)
  /-- The Core's turn: the completion step, where it is enabled (R43). -/
  | core
  /-- Power-on or the reset input (R250). -/
  | reset
deriving DecidableEq, Repr

/-- A buffer memory as the list of its written elements, (index, value), indices strictly rising (`Memory.wf`); an element
not listed is *unwritten* (R36). A `Memory Byte` is a list of `Host.Cell`. -/
abbrev Memory (α : Type) := List (Nat × α)

/-- Everything the spec gives the machine (R21, R36, R37, R39, R7), and the model's own `schedule`, `readData`, `draws`. -/
structure State where
  /-- The implementation's parameters (R7); no step changes them (log 1). -/
  params : Config.Params
  /-- CMD, offset `0x000` (R22). -/
  cmd : Word
  /-- STATUS, offset `0x004` (R23). -/
  status : Word
  /-- ARG0, offset `0x008` (R28). -/
  arg0 : Word
  /-- ARG1, offset `0x00C` (R29). -/
  arg1 : Word
  /-- ARG2, offset `0x010` (R30). -/
  arg2 : Word
  /-- RES0, offset `0x014` (R31). -/
  res0 : Word
  /-- TEXT_BUF (R36). -/
  textBuf : Memory Byte
  /-- WORD_BUF: whole words, with no byte view (R36, R57). -/
  wordBuf : Memory Word
  /-- PCM_BUF (R36). -/
  pcmBuf : Memory Byte
  /-- The phase (R37). -/
  phase : Phase
  /-- The fault mark (R39). -/
  faultMark : Option FaultMark
  /-- The model's own: what happens next, oldest first (log 2). -/
  schedule : List Event
  /-- The model's own: the value the last host read returned, if there was one (log 3). -/
  readData : Option Word
  /-- The model's own: how many host reads have returned, the number of the next draw (log 4). -/
  draws : Nat
deriving DecidableEq, Repr

/-- Why the machine stops. -/
inductive Fault where
  /-- The fault mark is set: "no agent steps afterwards" (R39, R229). Raised by every step but a reset event, and by every
  meaning, in a state whose mark is set. Safe: the spec defines no behaviour there. -/
  | marked (k : FaultMark)
  /-- A meaning was asked to complete while no command is outstanding; completion is enabled exactly when phase = Busy
  (R43). Raised by every meaning in phase Ready, and by no step. Safe. -/
  | noCommand
deriving DecidableEq, Repr

/-- Why an instruction has no meaning here. -/
inductive Refusal where
  /-- The instruction has no meaning in this model yet. Raised by exec's arm only; no arm raises it now. Safe. -/
  | notModelled (mnemonic : String)
deriving DecidableEq, Repr

/-- The state right after reset (R40, R250). The parameters are log 1's; schedule, `readData` and `draws` are the model's own
(log 2, 3, 4). -/
def State.reset : State where
  params := Config.referenceParams
  cmd := 0x00000000#32
  status := 0x00000000#32
  arg0 := 0x00000000#32
  arg1 := 0x00000000#32
  arg2 := 0x00000000#32
  res0 := 0x00000000#32
  textBuf := []
  wordBuf := []
  pcmBuf := []
  phase := .ready
  faultMark := none
  schedule := []
  readData := none
  draws := 0

end Sys2Proof.Machine
end

