-- ==== Sys2Proof/Machine/Flags.lean ====
section
/-! DEFINITION. The STATUS register's fields and the values command start and completion give them (R23–R27, R42, R43, R220). -/

namespace Sys2Proof.Machine

/-- The code of a command error (R220). -/
def ErrCode.code : ErrCode → BitVec 4
  | .illegalCmd => 1#4
  | .argRange => 2#4
  | .rate => 3#4
  | .bufOverflow => 4#4
  | .arithOverflow => 5#4

/-- STATUS from its fields: BUSY bit 0, DONE bit 1, ERR bit 2, ERRCODE bits 11:8; bits 7:3 and 31:12 read 0 (R23). -/
def statusWord (busy done err : Bool) (errcode : BitVec 4) : Word :=
  0#20 ++ errcode ++ 0#5 ++ BitVec.ofBool err ++ BitVec.ofBool done ++ BitVec.ofBool busy

/-- STATUS.BUSY (R24). -/
def busyFlag (v : Word) : Bool := v.getLsbD 0

/-- STATUS.DONE (R25). -/
def doneFlag (v : Word) : Bool := v.getLsbD 1

/-- STATUS.ERR (R26). -/
def errFlag (v : Word) : Bool := v.getLsbD 2

/-- STATUS.ERRCODE (R27). -/
def errcodeField (v : Word) : BitVec 4 := v.extractLsb' 8 4

/-- STATUS after command start: BUSY 1, DONE 0, ERR 0, ERRCODE 0 (R42). -/
def statusStarted : Word := statusWord true false false 0#4

/-- STATUS after the completion of a command with error code `code`, 0 for success: BUSY 0, DONE 1, ERR 1 exactly when the
code is nonzero (R26, R27, R43). -/
def statusCompleted (code : BitVec 4) : Word := statusWord false true (code != 0#4) code

end Sys2Proof.Machine
end

