-- ==== Sys2Proof/Machine/Operands.lean ====
section
/-! DEFINITION. What a command reads: its operands as latched at command start, the buffers, the parameters (R44, R85, R87),
with the range checks of R223 and the core's element reads (R56, R61). -/

namespace Sys2Proof.Machine

/-- Everything the evaluation of a command may depend on (R44): the three operands, TEXT_BUF, WORD_BUF and the
implementation's capacities. -/
structure Inputs where
  params : Config.Params
  a0 : Word
  a1 : Word
  a2 : Word
  textBuf : Memory Byte
  wordBuf : Memory Word
deriving DecidableEq, Repr

/-- A 21-bit operand (message, payload or address), `none` when it is out of range; it is never truncated (R85, R223). -/
def operand21 (a : Word) : Option (BitVec 21) :=
  if a.toNat ≤ Config.addrMax then some (a.setWidth 21) else none

/-- A batch position operand, `none` when it is out of range (R223). -/
def operandOffset (a : Word) : Option Nat :=
  if a.toNat ≤ Config.offsetMax then some a.toNat else none

/-- The value element `i` holds, `none` when it is unwritten (R36). -/
def Memory.read {α : Type} : Memory α → Nat → Option α
  | [], _ => none
  | (k, v) :: rest, i => if k = i then some v else Memory.read rest i

/-- Elements `i … i+n-1` in index order, `none` when one of them is unwritten. -/
def Memory.readFrom {α : Type} (m : Memory α) : Nat → Nat → Option (List α)
  | _, 0 => some []
  | i, n + 1 =>
    match Memory.read m i with
    | none => none
    | some v =>
      match Memory.readFrom m (i + 1) n with
      | none => none
      | some vs => some (v :: vs)

/-- The seven bits a character contributes: bits 6:0 of its byte (R146). -/
def charOf (b : Byte) : BitVec 7 := b.extractLsb' 0 7

/-- `TextRead(0 … n-1)[6:0]`, `none` when a byte is unwritten (R56, R145, R168). -/
def Inputs.chars (x : Inputs) (n : Nat) : Option (List (BitVec 7)) :=
  (Memory.readFrom x.textBuf 0 n).map (List.map charOf)

/-- `WordRead(0 … n-1)`, `none` when a word is unwritten (R56, R198). -/
def Inputs.words (x : Inputs) (n : Nat) : Option (List Word) := Memory.readFrom x.wordBuf 0 n

end Sys2Proof.Machine
end

