-- ==== Sys2Proof/Machine/Ops.lean ====
section
/-! DEFINITION. The shared operations: buffer writes, the registers by name, command start (R42), the one completion
operation (R43) with its success and its error side (R221, the counterpart of taking an exception), the fault mark (R229) and
reset (R250).

THE RETURN FROM AN ERROR: there is none. "No handler runs and nothing needs to return. The next CMD write starts a new
command, which clears DONE, ERR and ERRCODE" (R230): that is `State.commandStart`. -/

namespace Sys2Proof.Machine

/-- `ceil_div(a, b)` (R10). -/
def ceilDiv (a b : Nat) : Nat := (a + b - 1) / b

/-! ## Buffer memories -/

/-- The canonical form: indices strictly rising. No entry equals what an unlisted element reads as, since an unlisted
element holds no value (R36). -/
def Memory.wf {α : Type} : Memory α → Bool
  | [] => true
  | [_] => true
  | (i, _) :: (k, v) :: rest => decide (i < k) && Memory.wf ((k, v) :: rest)

/-- Make element `i` hold `v` (R36). -/
def Memory.write {α : Type} : Memory α → Nat → α → Memory α
  | [], i, v => [(i, v)]
  | (k, x) :: rest, i, v =>
    if i < k then (i, v) :: (k, x) :: rest
    else if i = k then (i, v) :: rest
    else (k, x) :: Memory.write rest i v

/-- The elements `i, i+1, …` holding the given values. -/
def Memory.block {α : Type} : Nat → List α → Memory α
  | _, [] => []
  | i, v :: vs => (i, v) :: Memory.block (i + 1) vs

/-- A command's output: element `k` of the sequence goes to index `k`, and elements past it keep their contents (R61). -/
def Memory.overwrite {α : Type} (m : Memory α) (vs : List α) : Memory α :=
  Memory.block 0 vs ++ m.filter (fun e => decide (vs.length ≤ e.1))

/-- Every listed index is below the capacity (R52). -/
def Memory.within {α : Type} (cap : Nat) (m : Memory α) : Bool := m.all (fun e => decide (e.1 < cap))

/-- A host transfer from a byte buffer: the byte at the lowest offset in bits 7:0 (R55, R57). An unwritten byte takes its
lane of the draw `d` (R55, I13). -/
def Memory.readWord (m : Memory Byte) (i : Nat) (d : Word) : Word :=
  ((Memory.read m (i + 3)).getD (d.extractLsb' 24 8) ++ (Memory.read m (i + 2)).getD (d.extractLsb' 16 8)) ++
    ((Memory.read m (i + 1)).getD (d.extractLsb' 8 8) ++ (Memory.read m i).getD (d.extractLsb' 0 8))

/-- A host transfer to a byte buffer: bits 7:0 to the lowest offset (R54, R57). -/
def Memory.writeWord (m : Memory Byte) (i : Nat) (v : Word) : Memory Byte :=
  Memory.write (Memory.write (Memory.write (Memory.write m i (v.extractLsb' 0 8)) (i + 1) (v.extractLsb' 8 8))
    (i + 2) (v.extractLsb' 16 8)) (i + 3) (v.extractLsb' 24 8)

/-! ## Registers -/

/-- `x[r]` (R21). -/
def State.reg (s : State) : Reg → Word
  | .cmd => s.cmd
  | .status => s.status
  | .arg0 => s.arg0
  | .arg1 => s.arg1
  | .arg2 => s.arg2
  | .res0 => s.res0

/-- Whether a command is outstanding (R37). -/
def State.isBusy (s : State) : Bool :=
  match s.phase with
  | .ready => false
  | .busy _ _ _ _ => true

/-! ## Command start and completion -/

/-- Command start: a host write of `v` to CMD in phase Ready (R42). -/
def State.commandStart (s : State) (v : Word) : State :=
  { s with cmd := v, status := statusStarted, phase := .busy v s.arg0 s.arg1 s.arg2 }

/-- Set the fault mark, with no other effect (R229). -/
def State.markFault (s : State) (k : FaultMark) : State := { s with faultMark := some k }

/-- A command's element writes (R44), each list from index 0 of its buffer (R61, D28): `words[k]` to WORD_BUF[k] and `pcm[i]`
to PCM_BUF[i]. -/
structure Writes where
  words : List Word
  pcm : List Byte
deriving DecidableEq, Repr

/-- No element writes. -/
def Writes.none : Writes := { words := [], pcm := [] }

/-- What the evaluation of a command returns (R44). -/
inductive Result where
  /-- `Ok(res, writes)`; `res` is absent for NOP, which writes no RES0 (R31, R100). -/
  | ok (res : Option Word) (w : Writes)
  /-- `Err(code)`. -/
  | err (c : ErrCode)
  /-- `Fault(UNINIT_READ)`. -/
  | uninitRead
deriving DecidableEq, Repr

/-- Successful completion (R43): the writes, RES0, STATUS, and the phase back to Ready. -/
def State.completeOk (s : State) (res : Option Word) (w : Writes) : State :=
  { s with
    wordBuf := Memory.overwrite s.wordBuf w.words
    pcmBuf := Memory.overwrite s.pcmBuf w.pcm
    res0 := res.getD s.res0
    status := statusCompleted 0#4
    phase := .ready }

/-- Error completion, the counterpart of trap entry (R221): only STATUS changes, and the phase goes back to Ready. -/
def State.completeErr (s : State) (c : ErrCode) : State :=
  { s with status := statusCompleted c.code, phase := .ready }

/-- Apply the outcome of a command (R43). -/
def State.applyResult (s : State) : Result → State
  | .ok res w => s.completeOk res w
  | .err c => s.completeErr c
  | .uninitRead => s.markFault .uninitRead

/-- The inputs of an outstanding command with operands `a0`, `a1`, `a2` (R43, R44). -/
def State.inputs (s : State) (a0 a1 a2 : Word) : Inputs :=
  { params := s.params, a0 := a0, a1 := a1, a2 := a2, textBuf := s.textBuf, wordBuf := s.wordBuf }

/-- Command completion, "enabled exactly when phase = Busy(op, a0, a1, a2) and fault mark = none" (R43): evaluate the command
and apply its outcome in one atomic step. -/
def complete (f : Inputs → Result) (s : State) : Host.Outcome State Fault Refusal :=
  match s.faultMark with
  | some k => .fault (.marked k)
  | none =>
    match s.phase with
    | .ready => .fault .noCommand
    | .busy _ a0 a1 a2 => .next (s.applyResult (f (s.inputs a0 a1 a2)))

/-- The completion of a command whose word is illegal (R222). -/
def completeIllegal (s : State) : Host.Outcome State Fault Refusal := complete (fun _ => .err .illegalCmd) s

/-! ## Reset and the outside -/

/-- Reset: every piece of the hardware's state to its reset value (R250), whatever the phase (R251). The parameters are not
state of the hardware, the draws stay fresh, and the schedule goes on with `rest`. -/
def State.resetEvent (s : State) (rest : List Event) : State :=
  { State.reset with params := s.params, schedule := rest, draws := s.draws }

/-- The command word `v` outstanding, with the Core's turn next: what a host write of `v` to CMD leaves (R42), in a state with
no fault mark. The outside's load of one command (log 5). -/
def State.loadCommand (s : State) (v : Word) : State :=
  { s.commandStart v with faultMark := none, schedule := .core :: s.schedule }

end Sys2Proof.Machine
end

