-- ==== Sys2Proof/Machine/Checksum.lean ====
section
/-! DEFINITION. ChecksumUnit: the CRC, the parity bit, and the commands NOP, CRC and PARITY (40_checksum.md). -/

namespace Sys2Proof.Machine

/-- The rounds `i = n+9 downto 10` of the long division of R101: where dividend bit `i` is 1, XOR in the generator with its
bit 10 aligned to bit `i`. -/
def crcDivide : Nat → BitVec 31 → BitVec 31
  | 0, d => d
  | n + 1, d => crcDivide n (if d.getLsbD (n + 10) then d ^^^ (Config.gen <<< n) else d)

/-- `crc(message)`: the remainder of `message << 10` (R101). -/
def crc (m : BitVec 21) : BitVec 10 := (crcDivide 21 (m ++ 0#10)).setWidth 10

/-- `popcount(v)`: the number of 1 bits (R10). -/
def popcount {w : Nat} (v : BitVec w) : Nat := (List.range w).countP (fun i => v.getLsbD i)

/-- `parity(v)`: `popcount(v) mod 2` (R103). -/
def parity {w : Nat} (v : BitVec w) : BitVec 1 := BitVec.ofNat 1 (popcount v)

/-- NOP's evaluation (R100). -/
def evalNop (_ : Inputs) : Result := .ok none .none

/-- CRC's evaluation (R101). -/
def evalCrc (x : Inputs) : Result :=
  match operand21 x.a0 with
  | none => .err .argRange
  | some m => .ok (some ((crc m).setWidth 32)) .none

/-- PARITY's evaluation (R103). -/
def evalParity (x : Inputs) : Result := .ok (some ((parity x.a0).setWidth 32)) .none

/-- NOP (R100). -/
def execNop (s : State) : Host.Outcome State Fault Refusal := complete evalNop s

/-- CRC (R101). -/
def execCrc (s : State) : Host.Outcome State Fault Refusal := complete evalCrc s

/-- PARITY (R103). -/
def execParity (s : State) : Host.Outcome State Fault Refusal := complete evalParity s

end Sys2Proof.Machine
end

