-- ==== Sys2Proof/Machine/Codeword.lean ====
section
/-! DEFINITION. CodewordCodec: codeword assembly, validity, and the command ENCCW (41_codeword.md). -/

namespace Sys2Proof.Machine

/-- `payload:crc`, 31 bits (R120). -/
def payloadCrc (p : BitVec 21) : BitVec 31 := p ++ crc p

/-- `encodeCodeword(payload)`: type bit and data 31:11, CRC 10:1, parity 0 (R89, R120). -/
def encodeCodeword (p : BitVec 21) : Word := payloadCrc p ++ parity (payloadCrc p)

/-- The payload of a codeword, bits 31:11 (R89). -/
def codewordPayload (w : Word) : BitVec 21 := w.extractLsb' 11 21

/-- The CRC field of a codeword, bits 10:1 (R89). -/
def codewordCrc (w : Word) : BitVec 10 := w.extractLsb' 1 10

/-- The type bit of a codeword, bit 31: 1 for a message word (R89). -/
def codewordType (w : Word) : Bool := w.getLsbD 31

/-- A valid codeword (R122). -/
def validCodeword (w : Word) : Bool := w == encodeCodeword (codewordPayload w)

/-- ENCCW's evaluation (R120). -/
def evalEnccw (x : Inputs) : Result :=
  match operand21 x.a0 with
  | none => .err .argRange
  | some p => .ok (some (encodeCodeword p)) .none

/-- ENCCW (R120). -/
def execEnccw (s : State) : Host.Outcome State Fault Refusal := complete evalEnccw s

end Sys2Proof.Machine
end

