-- ==== Sys2Proof/Machine/TextPacker.lean ====
section
/-! DEFINITION. TextPacker: the packer of R140 with its counters (R38, alive only inside a command) and the command ENCASCII
(42_textpacker.md). -/

namespace Sys2Proof.Machine

/-- The packer's variables (R140): the words emitted, the batch position, the 20-bit accumulator and how many bits it holds. -/
structure Packer where
  out : List Word
  pos : Nat
  acc : BitVec 20
  nb : Nat
deriving DecidableEq, Repr

/-- `acc | 0x100000`: a message word's payload (R90, R140). -/
def messagePayload (acc : BitVec 20) : BitVec 21 := acc.setWidth 21 ||| Config.flagMessage

/-- Emit the accumulator as a message word, advance the batch position, and at 16 emit SYNC and start again at 0 (R140, R142). -/
def Packer.emit (p : Packer) : Packer :=
  let out := p.out ++ [encodeCodeword (messagePayload p.acc)]
  if p.pos + 1 = Config.batchSize then { out := out ++ [Config.sync], pos := 0, acc := 0#20, nb := 0 }
  else { out := out, pos := p.pos + 1, acc := 0#20, nb := 0 }

/-- Shift one bit in, and emit at 20 bits (R140). -/
def Packer.push (p : Packer) (b : Bool) : Packer :=
  let q : Packer := { p with acc := (p.acc <<< 1) ||| (BitVec.ofBool b).setWidth 20, nb := p.nb + 1 }
  if q.nb = Config.dataBits then q.emit else q

/-- The final partial word, its bits shifted to the top of the chunk (R140, R143). -/
def Packer.flush (p : Packer) : Packer :=
  if 0 < p.nb then Packer.emit { p with acc := p.acc <<< (Config.dataBits - p.nb) } else p

/-- A character's bits, bit 0 first (R140, R141). -/
def charBitList (c : BitVec 7) : List Bool := (List.range Config.charBits).map (fun i => c.getLsbD i)

/-- The bit string `S` of a text (R141). -/
def textBits (chars : List (BitVec 7)) : List Bool := chars.flatMap charBitList

/-- `pack(offset, chars)`: the emitted words and the final batch position (R140). -/
def pack (offset : Nat) (chars : List (BitVec 7)) : List Word × Nat :=
  let start : Packer := { out := [], pos := offset, acc := 0#20, nb := 0 }
  let p := ((textBits chars).foldl Packer.push start).flush
  (p.out, p.pos)

/-- `T`: the number of message words of an `n`-character text (R144). -/
def messageWords (n : Nat) : Nat := ceilDiv (Config.charBits * n) Config.dataBits

/-- The number of words `pack` emits (R144). -/
def packCount (offset n : Nat) : Nat := messageWords n + (offset + messageWords n) / Config.batchSize

/-- ENCASCII's evaluation, the checks in the order of its pseudocode (R145, R227). -/
def evalEncascii (x : Inputs) : Result :=
  match operandOffset x.a0 with
  | none => .err .argRange
  | some offset =>
    if x.params.textMax < x.a1.toNat then .err .bufOverflow
    else if x.params.wordMax < packCount offset x.a1.toNat then .err .bufOverflow
    else
      match x.chars x.a1.toNat with
      | none => .uninitRead
      | some chars =>
        .ok (some (BitVec.ofNat 32 (packCount offset x.a1.toNat))) { words := (pack offset chars).1, pcm := [] }

/-- ENCASCII (R145). -/
def execEncascii (s : State) : Host.Outcome State Fault Refusal := complete evalEncascii s

end Sys2Proof.Machine
end

