-- ==== Sys2Proof/Machine/FrameBuilder.lean ====
section
/-! DEFINITION. FrameBuilder: the address offset, the transmission, its length, and the commands ADDROFF, ENCTX and TXLEN
(43_framebuilder.md). -/

namespace Sys2Proof.Machine

/-- `addressOffset(a) = (a & 7) * 2` (R160). -/
def addressOffset (a : BitVec 21) : Nat := (a &&& 7#21).toNat * Config.frameSize

/-- The address word's payload, `((a >> 3) << 2) | 0b11` (R163). -/
def addressPayload (a : BitVec 21) : BitVec 21 := ((a >>> 3) <<< 2) ||| Config.funcText

/-- The framer's phases, in order (R167). They are internal to a command (R38). -/
inductive FramerPhase where
  | preamble
  | addressPadding
  | address
  | messageBody
  | terminator
  | batchPadding
deriving DecidableEq, Repr

/-- The message body: `pack(off + 1, chars)` (R164 step 5). -/
def messageBody (a : BitVec 21) (chars : List (BitVec 7)) : List Word × Nat := pack (addressOffset a + 1) chars

/-- What each phase emits (R162–R166): 18 preamble words; IDLE up to the address's frame; the address codeword; the message
body; one IDLE; and IDLE up to position 16, counting the terminator. -/
def framerWords (a : BitVec 21) (chars : List (BitVec 7)) : FramerPhase → List Word
  | .preamble => List.replicate Config.preambleWords Config.preambleWord
  | .addressPadding => List.replicate (addressOffset a) Config.idle
  | .address => [encodeCodeword (addressPayload a)]
  | .messageBody => (messageBody a chars).1
  | .terminator => [Config.idle]
  | .batchPadding => List.replicate (Config.batchSize - ((messageBody a chars).2 + 1)) Config.idle

/-- `encodeTransmission(a, chars)`: the phases in order, with the first batch's SYNC after the preamble (R164). -/
def encodeTransmission (a : BitVec 21) (chars : List (BitVec 7)) : List Word :=
  framerWords a chars .preamble ++ [Config.sync] ++ framerWords a chars .addressPadding ++ framerWords a chars .address ++
    framerWords a chars .messageBody ++ framerWords a chars .terminator ++ framerWords a chars .batchPadding

/-- `B`: the batch words before the terminator (R170). -/
def batchWords (a : BitVec 21) (n : Nat) : Nat := addressOffset a + 1 + messageWords n

/-- `txlen(a, n)` (R170). -/
def txlen (a : BitVec 21) (n : Nat) : Nat :=
  Config.preambleWords + (Config.batchSize + 1) * (batchWords a n / Config.batchSize + 1)

/-- ADDROFF's evaluation (R161). -/
def evalAddroff (x : Inputs) : Result :=
  match operand21 x.a0 with
  | none => .err .argRange
  | some a => .ok (some (BitVec.ofNat 32 (addressOffset a))) .none

/-- ENCTX's evaluation, the checks in the order of its pseudocode (R168, R227). -/
def evalEnctx (x : Inputs) : Result :=
  match operand21 x.a0 with
  | none => .err .argRange
  | some a =>
    if x.params.textMax < x.a1.toNat then .err .bufOverflow
    else if x.params.wordMax < txlen a x.a1.toNat then .err .bufOverflow
    else
      match x.chars x.a1.toNat with
      | none => .uninitRead
      | some chars =>
        .ok (some (BitVec.ofNat 32 (txlen a x.a1.toNat))) { words := encodeTransmission a chars, pcm := [] }

/-- TXLEN's evaluation (R171). -/
def evalTxlen (x : Inputs) : Result :=
  match operand21 x.a0 with
  | none => .err .argRange
  | some a => .ok (some (BitVec.ofNat 32 (txlen a x.a1.toNat))) .none

/-- ADDROFF (R161). -/
def execAddroff (s : State) : Host.Outcome State Fault Refusal := complete evalAddroff s

/-- ENCTX (R168). -/
def execEnctx (s : State) : Host.Outcome State Fault Refusal := complete evalEnctx s

/-- TXLEN (R171). -/
def execTxlen (s : State) : Host.Outcome State Fault Refusal := complete evalTxlen s

end Sys2Proof.Machine
end

