-- ==== Sys2Proof/Machine/Modulator.lean ====
section
/-! DEFINITION. AudioModulator: the PCM length, the two-level samples with nearest-index resampling, and the commands PCMLEN
and PCMENC (44_modulator.md). All arithmetic is exact (R190). -/

namespace Sys2Proof.Machine

/-- `pcmlen(sr, baud, wc)`: the division before the doubling (R190). -/
def pcmlen (sr baud wc : Nat) : Nat := wc * 32 * sr / baud * 2

/-- `R = 38400 div baud` (R192). -/
def repeatsPerBit (baud : Nat) : Nat := Config.symbolRate / baud

/-- `level(bit)` (R193). -/
def level (b : Bool) : BitVec 16 := if b then Config.level1 else Config.level0

/-- Global bit `g` of a word sequence: words in index order, bits from 31 down to 0 (R194). A `g` past the last word is
asked for by no sample of PCMENC (R195); the 0 there is never used. -/
def airBit (words : List Word) (g : Nat) : Bool := (words.getD (g / 32) 0#32).getLsbD (31 - g % 32)

/-- `I[j]`, the intermediate sequence at the symbol rate (R194). -/
def intermediate (words : List Word) (baud j : Nat) : BitVec 16 := level (airBit words (j / repeatsPerBit baud))

/-- `O[i] = I[(i * 38400) div sr]` (R195). -/
def outputSample (words : List Word) (sr baud i : Nat) : BitVec 16 :=
  intermediate words baud (i * Config.symbolRate / sr)

/-- A sample's two bytes, low byte first (R196). -/
def sampleBytes (v : BitVec 16) : List Byte := [v.extractLsb' 0 8, v.extractLsb' 8 8]

/-- The bytes PCMENC writes: `pcmlen / 2` samples (R195, R196, R198). -/
def pcmBytes (words : List Word) (sr baud : Nat) : List Byte :=
  (List.range (pcmlen sr baud words.length / 2)).flatMap (fun i => sampleBytes (outputSample words sr baud i))

/-- PCMLEN's evaluation (R191). -/
def evalPcmlen (x : Inputs) : Result :=
  if x.a0.toNat = 0 ∨ x.a1.toNat = 0 then .err .rate
  else if Config.resultMax < pcmlen x.a0.toNat x.a1.toNat x.a2.toNat then .err .arithOverflow
  else .ok (some (BitVec.ofNat 32 (pcmlen x.a0.toNat x.a1.toNat x.a2.toNat))) .none

/-- PCMENC's evaluation, the checks in the order of its pseudocode (R198, R227). -/
def evalPcmenc (x : Inputs) : Result :=
  if x.a0.toNat = 0 ∨ x.a1.toNat = 0 ∨ Config.symbolRate % x.a1.toNat ≠ 0 then .err .rate
  else if Config.resultMax < pcmlen x.a0.toNat x.a1.toNat x.a2.toNat then .err .arithOverflow
  else if x.params.wordMax < x.a2.toNat then .err .bufOverflow
  else if x.params.pcmMax < pcmlen x.a0.toNat x.a1.toNat x.a2.toNat then .err .bufOverflow
  else
    match x.words x.a2.toNat with
    | none => .uninitRead
    | some words =>
      .ok (some (BitVec.ofNat 32 (pcmlen x.a0.toNat x.a1.toNat x.a2.toNat)))
        { words := [], pcm := pcmBytes words x.a0.toNat x.a1.toNat }

/-- PCMLEN (R191). -/
def execPcmlen (s : State) : Host.Outcome State Fault Refusal := complete evalPcmlen s

/-- PCMENC (R198). -/
def execPcmenc (s : State) : Host.Outcome State Fault Refusal := complete evalPcmenc s

end Sys2Proof.Machine
end

