-- ==== Sys2Proof/Machine/Dispatch.lean ====
section
/-! DEFINITION. One arm per command: the meaning of each is its completion step (R43, R44). -/

namespace Sys2Proof.Machine

def exec (i : Instr) (s : State) : Host.Outcome State Fault Refusal :=
  match i with
  | .nop => Sys2Proof.Machine.execNop s
  | .crc => Sys2Proof.Machine.execCrc s
  | .parity => Sys2Proof.Machine.execParity s
  | .enccw => Sys2Proof.Machine.execEnccw s
  | .encascii => Sys2Proof.Machine.execEncascii s
  | .addroff => Sys2Proof.Machine.execAddroff s
  | .enctx => Sys2Proof.Machine.execEnctx s
  | .txlen => Sys2Proof.Machine.execTxlen s
  | .pcmlen => Sys2Proof.Machine.execPcmlen s
  | .pcmenc => Sys2Proof.Machine.execPcmenc s

end Sys2Proof.Machine
end

