-- ==== Sys2Proof/Machine/HostPort.lean ====
section
/-! DEFINITION. The host window: its map (R51), the host's reads and writes (R53–R55), and their two faults (R58, R239). -/

namespace Sys2Proof.Machine

/-- What an implemented, aligned offset addresses (R51): a register, TEXT_BUF bytes `i … i+3`, WORD_BUF word `k`, or PCM_BUF
bytes `i … i+3`. -/
inductive Target where
  | reg (r : Reg)
  | text (i : Nat)
  | word (k : Nat)
  | pcm (i : Nat)
deriving DecidableEq, Repr

/-- The first offset of the TEXT window (R51). -/
def textBase : Nat := 0x010000

/-- The first offset of the WORD window (R51). -/
def wordBase : Nat := 0x020000

/-- The first offset past the WORD window (R51). -/
def wordEnd : Nat := 0x030000

/-- The first offset of the PCM window (R51). -/
def pcmBase : Nat := 0x100000

/-- The register at an offset (R21). -/
def regAt (o : Nat) : Option Reg :=
  match o with
  | 0x000 => some .cmd
  | 0x004 => some .status
  | 0x008 => some .arg0
  | 0x00C => some .arg1
  | 0x010 => some .arg2
  | 0x014 => some .res0
  | _ => none

/-- The offset of a register (R21). -/
def regOffset : Reg → Nat
  | .cmd => 0x000
  | .status => 0x004
  | .arg0 => 0x008
  | .arg1 => 0x00C
  | .arg2 => 0x010
  | .res0 => 0x014

/-- The window's map at an aligned offset (R51, R52); `none` for a reserved offset and for the unimplemented part of a buffer
window. -/
def mapOffset (p : Config.Params) (o : Nat) : Option Target :=
  if o < textBase then (regAt o).map .reg
  else if o < wordBase then
    if o - textBase < p.textMax then some (.text (o - textBase)) else none
  else if o < wordEnd then
    if (o - wordBase) / 4 < p.wordMax then some (.word ((o - wordBase) / 4)) else none
  else if o < pcmBase then none
  else if o - pcmBase < p.pcmMax then some (.pcm (o - pcmBase)) else none

/-- The target of a host access; `none` when its size is not 4, its offset is not a multiple of 4, or the map has nothing
there (R53, R58). -/
def accessTarget (p : Config.Params) (off : Offset) (size : Nat) : Option Target :=
  if size = 4 ∧ off.toNat % 4 = 0 then mapOffset p off.toNat else none

/-- Whether the Host may write a target: not STATUS and not RES0 (R21, R58). -/
def Target.writable : Target → Bool
  | .reg .status => false
  | .reg .res0 => false
  | .reg _ => true
  | .text _ => true
  | .word _ => true
  | .pcm _ => true

/-- The target of a host write; `none` where it is a bus fault (R58). -/
def writeTargetOf (p : Config.Params) (off : Offset) (size : Nat) : Option Target :=
  match accessTarget p off size with
  | none => none
  | some t => if t.writable then some t else none

/-- The value at a target, the draw standing for what is unwritten (R55). -/
def State.targetValue (s : State) : Target → Word
  | .reg r => s.reg r
  | .text i => Memory.readWord s.textBuf i (Config.draw s.draws)
  | .word k => (Memory.read s.wordBuf k).getD (Config.draw s.draws)
  | .pcm i => Memory.readWord s.pcmBuf i (Config.draw s.draws)

/-- A host read returns `v`; the next read's draw is a fresh one (R55). -/
def State.returnRead (s : State) (v : Word) : State := { s with readData := some v, draws := s.draws + 1 }

/-- A host write of `v` to a writable target, in phase Ready (R54). -/
def State.writeTarget (s : State) (v : Word) : Target → State
  | .reg .cmd => s.commandStart v
  | .reg .arg0 => { s with arg0 := v }
  | .reg .arg1 => { s with arg1 := v }
  | .reg .arg2 => { s with arg2 := v }
  | .reg .status => s
  | .reg .res0 => s
  | .text i => { s with textBuf := Memory.writeWord s.textBuf i v }
  | .word k => { s with wordBuf := Memory.write s.wordBuf k v }
  | .pcm i => { s with pcmBuf := Memory.writeWord s.pcmBuf i v }

/-- `MemRead(off, size)` in a state with no fault mark. A bus fault comes before a protocol fault (R58); a read of STATUS is
allowed in every phase (R55, R239). -/
def hostRead (off : Offset) (size : Nat) (s : State) : State :=
  match accessTarget s.params off size with
  | none => s.markFault .busFault
  | some t =>
    if s.isBusy = true ∧ t ≠ .reg .status then s.markFault .hostProtocol
    else s.returnRead (s.targetValue t)

/-- `MemWrite(off, size, v)` in a state with no fault mark (R54). A bus fault comes before a protocol fault (R58, R239). -/
def hostWrite (off : Offset) (size : Nat) (v : Word) (s : State) : State :=
  match writeTargetOf s.params off size with
  | none => s.markFault .busFault
  | some t => if s.isBusy then s.markFault .hostProtocol else s.writeTarget v t

/-- The window offset of a platform address: the 2 MiB from `CORE_BASE` on (R50). An address outside them is none of this
core's. -/
def windowOffset (p : Config.Params) (addr : Nat) : Option Offset :=
  if p.coreBase ≤ addr ∧ addr - p.coreBase < 0x200000 then some (BitVec.ofNat 21 (addr - p.coreBase)) else none

end Sys2Proof.Machine
end

