-- ==== Sys2Proof/Machine/Agents.lean ====
section
/-! DEFINITION. The agents (R20) and one step of a run: the schedule says what moves next (log 2). -/

namespace Sys2Proof.Machine

/-- The Core's turn in a state with no fault mark: the outstanding command's word is decoded and the command completes
(R43, R82, R83). In phase Ready the Core has no step, and its turn passes. -/
def coreTurn (s : State) : Host.Outcome State Fault Refusal :=
  match s.phase with
  | .ready => .next s
  | .busy op _ _ _ =>
    match decode op with
    | .instr i => exec i s
    | .illegal _ => completeIllegal s

/-- One step of a run. A reset event resets in any phase, and alone leaves a faulted state (R250). From a faulted state no
agent steps (R39, R229). Once the schedule is empty the Core has every turn, so that a Busy core completes (R262). -/
def advance (s : State) : Host.Outcome State Fault Refusal :=
  match s.faultMark, s.schedule with
  | _, .reset :: rest => .next (s.resetEvent rest)
  | some k, _ => .fault (.marked k)
  | none, [] => coreTurn s
  | none, .core :: rest => coreTurn { s with schedule := rest }
  | none, .read off size :: rest => .next (hostRead off size { s with schedule := rest })
  | none, .write off size v :: rest => .next (hostWrite off size v { s with schedule := rest })

end Sys2Proof.Machine
end

