-- ==== Sys2Proof/WellFormed.lean ====
section
/-! DEFINITION. Well-formedness. A command carries no operand fields (R80, R85), so no command is ill-formed; what the spec
constrains is the implementation's parameters (R7), one named check per constraint. -/

namespace Sys2Proof

/-- Every command is well-formed: it has no field that could be out of range (R80, R84, R85). -/
def Instr.wellFormed : Instr → Bool
  | .nop => true
  | .crc => true
  | .parity => true
  | .enccw => true
  | .encascii => true
  | .addroff => true
  | .enctx => true
  | .txlen => true
  | .pcmlen => true
  | .pcmenc => true

namespace Config.Params

/-- `CORE_BASE` is a multiple of `0x200000` (R7). -/
def coreBaseOk (p : Params) : Bool := p.coreBase % 0x200000 == 0

/-- `TEXT_MAX` is a multiple of 4 between 4 and 65536 (R7). -/
def textMaxOk (p : Params) : Bool := p.textMax % 4 == 0 && (decide (4 ≤ p.textMax) && decide (p.textMax ≤ 65536))

/-- `WORD_MAX` is between 35 and 16384 (R7). -/
def wordMaxOk (p : Params) : Bool := decide (35 ≤ p.wordMax) && decide (p.wordMax ≤ 16384)

/-- `PCM_MAX` is a multiple of 4 between 4 and 1048576 (R7). -/
def pcmMaxOk (p : Params) : Bool := p.pcmMax % 4 == 0 && (decide (4 ≤ p.pcmMax) && decide (p.pcmMax ≤ 1048576))

/-- The parameters meet every constraint of R7. -/
def wellFormed (p : Params) : Bool := p.coreBaseOk && (p.textMaxOk && (p.wordMaxOk && p.pcmMaxOk))

end Config.Params

end Sys2Proof
end

