-- ==== Sys2Proof/Safety.lean ====
section
/-! DEFINITION. What claims are stated in terms of: the evaluation of each command, when a command is outstanding, whose turn
it is, the invariants of the state, and what a safe run is. -/

namespace Sys2Proof.Machine

/-- The evaluation of each command (R44). -/
def evalOf : Instr → Inputs → Result
  | .nop => evalNop
  | .crc => evalCrc
  | .parity => evalParity
  | .enccw => evalEnccw
  | .encascii => evalEncascii
  | .addroff => evalAddroff
  | .enctx => evalEnctx
  | .txlen => evalTxlen
  | .pcmlen => evalPcmlen
  | .pcmenc => evalPcmenc

/-- A command with word `op` and operands `a0`, `a1`, `a2` is outstanding and may complete: "enabled exactly when phase =
Busy(op, a0, a1, a2) and fault mark = none" (R43). -/
def Outstanding (s : State) (op a0 a1 a2 : Word) : Prop := s.faultMark = none ∧ s.phase = .busy op a0 a1 a2

/-- The Host's turn or the Core's, in a state with no fault mark: `e` happens next, then `rest`. -/
def Turn (s : State) (e : Event) (rest : List Event) : Prop := s.faultMark = none ∧ s.schedule = e :: rest

/-- The memories and the parameters are as they may be: R7's constraints hold, each buffer is in its canonical form, and no
element at or past a buffer's capacity is written (R36, R52). -/
structure MemoryOk (s : State) : Prop where
  params : s.params.wellFormed = true
  text : Memory.wf s.textBuf = true
  word : Memory.wf s.wordBuf = true
  pcm : Memory.wf s.pcmBuf = true
  textCap : Memory.within s.params.textMax s.textBuf = true
  wordCap : Memory.within s.params.wordMax s.wordBuf = true
  pcmCap : Memory.within s.params.pcmMax s.pcmBuf = true

/-- STATUS is as R23–R27 say it is: it consists of its four fields; BUSY is 1 exactly in phase Busy; ERR is 1 exactly when
ERRCODE is not 0; ERRCODE is at most 5; while BUSY, DONE and ERRCODE are 0; and an error is reported only with DONE. -/
structure StatusOk (s : State) : Prop where
  fields : s.status = statusWord (busyFlag s.status) (doneFlag s.status) (errFlag s.status) (errcodeField s.status)
  busy : busyFlag s.status = s.isBusy
  err : errFlag s.status = (errcodeField s.status != 0#4)
  code : (errcodeField s.status).toNat ≤ 5
  running : busyFlag s.status = true → doneFlag s.status = false ∧ errcodeField s.status = 0#4
  errDone : errFlag s.status = true → doneFlag s.status = true

/-- While a command is outstanding, CMD and ARG0–ARG2 still hold its word and operands (R263). -/
def OperandsStable (s : State) : Prop :=
  match s.phase with
  | .ready => True
  | .busy op a0 a1 a2 => s.cmd = op ∧ s.arg0 = a0 ∧ s.arg1 = a1 ∧ s.arg2 = a2

/-- The protocol and uninitialised-read marks are set only while a command is outstanding, and stay with it (R56, R239). -/
def MarkOk (s : State) : Prop :=
  s.faultMark = some .hostProtocol ∨ s.faultMark = some .uninitRead → s.isBusy = true

/-- A safe run of `k` steps: it reaches a state with no fault recorded (R229). -/
def SafeRun (k : Nat) (s : State) : Prop := ∃ t, Sys2Proof.core.run k s = .next t ∧ t.faultMark = none

end Sys2Proof.Machine
end

