-- ==== Sys2Proof/Certificates/Slice0/Obligations.lean ====
section
/-! DEFINITION. The statements about the model, from the spec's numbered rules. The helpers under Sys2Proof.Claims say in the
statements' own terms what a rule says, apart from the model's definitions. Who moves next is the schedule's to say, and what a
host read returned stands in `readData`, with its draw numbered by `draws`: these three fields are the model's own (log 2, 3, 4),
and a statement's clauses about them say what the model does, not what a rule says. -/

open Sys2Proof Sys2Proof.Machine

/-! ## Helpers of the statements -/

/-- The carry-less product of a 21-bit quotient and the generator `0b11101101001`: polynomial multiplication over GF(2). -/
def Sys2Proof.Claims.timesGen (q : BitVec 21) : BitVec 31 :=
  (List.range 21).foldl (fun d k => if q.getLsbD k then d ^^^ (0b11101101001#31 <<< k) else d) 0#31

/-- `r` is a remainder of degree below 10 of `m(x)·x^10` divided by the generator (R101). -/
def Sys2Proof.Claims.IsRemainder (m : BitVec 21) (r : BitVec 10) : Prop :=
  ∃ q : BitVec 21, m ++ 0#10 = Sys2Proof.Claims.timesGen q ^^^ r.setWidth 31

/-- `T = ceil_div(7n, 20)` (R144). -/
def Sys2Proof.Claims.messageCount (n : Nat) : Nat := (7 * n + 19) / 20

/-- Bit `x` of the bit string `S` of R141, `S[7q + i] = chars[q][i]`, and 0 from `7n` on. -/
def Sys2Proof.Claims.textBit (chars : List (BitVec 7)) (x : Nat) : Bool :=
  decide (x < 7 * chars.length) && (chars.getD (x / 7) 0#7).getLsbD (x % 7)

/-- `txlen` by R170's formula, on an operand word. -/
def Sys2Proof.Claims.transmissionLength (a : Word) (n : Nat) : Nat :=
  18 + 17 * ((a.toNat % 8 * 2 + 1 + Sys2Proof.Claims.messageCount n) / 16 + 1)

/-- `pcmlen` by R190's formula. -/
def Sys2Proof.Claims.byteCount (sr baud wc : Nat) : Nat := wc * 32 * sr / baud * 2

/-- A host access breaks R58 (with R51's reserved offsets and R52's unimplemented parts written out). -/
def Sys2Proof.Claims.BreaksBusRule (p : Config.Params) (off : Offset) (size : Nat) (isWrite : Bool) : Prop :=
  size ≠ 4 ∨ off.toNat % 4 ≠ 0 ∨
  (0x000018 ≤ off.toNat ∧ off.toNat < 0x010000) ∨
  (0x030000 ≤ off.toNat ∧ off.toNat < 0x100000) ∨
  (0x010000 + p.textMax ≤ off.toNat ∧ off.toNat < 0x020000) ∨
  (0x020000 + 4 * p.wordMax ≤ off.toNat ∧ off.toNat < 0x030000) ∨
  0x100000 + p.pcmMax ≤ off.toNat ∨
  (isWrite = true ∧ (off.toNat = 0x004 ∨ off.toNat = 0x014))

/-- One element of the host window: a register, a byte of TEXT_BUF or PCM_BUF, or a word of WORD_BUF (R21, R36, R51). -/
inductive Sys2Proof.Claims.Element where
  | reg (r : Reg)
  | text (i : Nat)
  | word (k : Nat)
  | pcm (i : Nat)
deriving DecidableEq, Repr

/-- The value an element holds, a byte in bits 7:0; none for an unwritten element (R36). -/
def Sys2Proof.Claims.valueOf (s : State) : Sys2Proof.Claims.Element → Option Word
  | .reg r => some (s.reg r)
  | .text i => (Memory.read s.textBuf i).map (fun b => b.setWidth 32)
  | .word k => Memory.read s.wordBuf k
  | .pcm i => (Memory.read s.pcmBuf i).map (fun b => b.setWidth 32)

/-- The part of a legal host transfer of `x` at `off` that belongs to an element; none where the transfer does not cover it
(R51, R54, R55). -/
def Sys2Proof.Claims.partOf (off : Offset) (x : Word) : Sys2Proof.Claims.Element → Option Word
  | .reg r => if off.toNat = regOffset r then some x else none
  | .text i =>
    if i < 0x10000 ∧ off.toNat ≤ 0x010000 + i ∧ 0x010000 + i < off.toNat + 4 then
      some ((x.extractLsb' (8 * (0x010000 + i - off.toNat)) 8).setWidth 32)
    else none
  | .word k => if k < 0x4000 ∧ off.toNat = 0x020000 + 4 * k then some x else none
  | .pcm i =>
    if off.toNat ≤ 0x100000 + i ∧ 0x100000 + i < off.toNat + 4 then
      some ((x.extractLsb' (8 * (0x100000 + i - off.toNat)) 8).setWidth 32)
    else none

/-- What the completion of a command with a given outcome writes to an element (R43, R61). -/
def Sys2Proof.Claims.completionWrite : Result → Sys2Proof.Claims.Element → Option Word
  | .ok res _, .reg .res0 => res
  | .ok _ _, .reg .status => some 0x00000002#32
  | .ok _ w, .word k => w.words[k]?
  | .ok _ w, .pcm i => w.pcm[i]?.map (fun b => b.setWidth 32)
  | .err c, .reg .status => some (c.code.setWidth 32 <<< 8 ||| 0x00000006#32)
  | _, _ => none

/-- The outcome of an outstanding command word (R44, R83). -/
def Sys2Proof.Claims.outcome (s : State) (op a0 a1 a2 : Word) : Result :=
  match decode op with
  | .instr i => evalOf i (s.inputs a0 a1 a2)
  | .illegal _ => .err .illegalCmd

/-- The step from `s` writes `v` to the element `e`: a legal host write in phase Ready that covers it (R54), the STATUS a command
start writes (R42), or a completion at the Core's turn (R43). -/
def Sys2Proof.Claims.Writes (s : State) (e : Sys2Proof.Claims.Element) (v : Word) : Prop :=
  (∃ off x rest, s.schedule = .write off 4 x :: rest ∧ s.phase = .ready ∧
    ¬ Sys2Proof.Claims.BreaksBusRule s.params off 4 true ∧
    (Sys2Proof.Claims.partOf off x e = some v ∨ (off = 0#21 ∧ e = .reg .status ∧ v = 0x00000001#32))) ∨
  (∃ op a0 a1 a2, s.phase = .busy op a0 a1 a2 ∧ (s.schedule = [] ∨ ∃ rest, s.schedule = .core :: rest) ∧
    Sys2Proof.Claims.completionWrite (Sys2Proof.Claims.outcome s op a0 a1 a2) e = some v)

/-- How many of ARG0, ARG1, ARG2 a command reads, from the first on (R87). -/
def Sys2Proof.Claims.operandsRead : Instr → Nat
  | .nop => 0
  | .crc => 1
  | .parity => 1
  | .enccw => 1
  | .encascii => 2
  | .addroff => 1
  | .enctx => 2
  | .txlen => 2
  | .pcmlen => 3
  | .pcmenc => 3

/-! ## Encoding -/

/-- R82: a command word selects opcode `n` if and only if it equals `n`, and every other word is illegal. -/
def Obligations.CommandWordSelectsExactlyItsOpcode : Prop :=
  ∀ v : Word,
    (decode v = .instr .nop ↔ v = 0x00000000#32) ∧ (decode v = .instr .crc ↔ v = 0x00000001#32) ∧
    (decode v = .instr .parity ↔ v = 0x00000002#32) ∧ (decode v = .instr .enccw ↔ v = 0x00000003#32) ∧
    (decode v = .instr .encascii ↔ v = 0x00000004#32) ∧ (decode v = .instr .addroff ↔ v = 0x00000005#32) ∧
    (decode v = .instr .enctx ↔ v = 0x00000006#32) ∧ (decode v = .instr .txlen ↔ v = 0x00000007#32) ∧
    (decode v = .instr .pcmlen ↔ v = 0x00000008#32) ∧ (decode v = .instr .pcmenc ↔ v = 0x00000009#32) ∧
    ((∃ why, decode v = .illegal why) ↔ 9 < v.toNat)

/-- Decoding the encoding of a well-formed command gives it back (R81, R82). -/
def Obligations.DecodeOfEncodeIsTheCommand : Prop :=
  ∀ i : Instr, i.wellFormed = true → decode (encode i) = .instr i ∧ decodeTableWord 32 (encode i).toNat = some i

/-- Words written out from the opcode table's encodings decode to their commands, and words with RSVD ≠ 0 or a reserved
OPCODE to their rejections. -/
def Obligations.OpcodeTableWordsDecode : Prop :=
  decode 0b00000000000000000000000000000000#32 = .instr .nop ∧
  decode 0b00000000000000000000000000000001#32 = .instr .crc ∧
  decode 0b00000000000000000000000000000011#32 = .instr .enccw ∧
  decode 0b00000000000000000000000000000100#32 = .instr .encascii ∧
  decode 0b00000000000000000000000000000110#32 = .instr .enctx ∧
  decode 0b00000000000000000000000000001001#32 = .instr .pcmenc ∧
  decode 0b00000000000000000000000000001010#32 = .illegal .reservedOpcode ∧
  decode 0b10000000000000000000000000000001#32 = .illegal .rsvdNonzero

/-- R222: a command whose word has RSVD ≠ 0 or a reserved OPCODE completes with ILLEGAL_CMD, whatever its operands, and
nothing but STATUS and the phase changes. -/
def Obligations.IllegalCommandWordCompletesWithIllegalCmd : Prop :=
  ∀ (s : State) (op a0 a1 a2 : Word) (rest : List Event),
    Outstanding s op a0 a1 a2 → s.schedule = .core :: rest →
    (op.extractLsb' 4 28 ≠ 0#28 ∨ 0xA ≤ (op.extractLsb' 0 4).toNat) →
    step s = .next { s with schedule := rest, status := 0x00000106#32, phase := .ready }

/-- A step runs the decoded command: at the Core's turn, and once the schedule is empty, the step is exec of the command the
outstanding word decodes to. -/
def Obligations.StepRunsTheDecodedCommand : Prop :=
  ∀ (s : State) (op a0 a1 a2 : Word) (i : Instr),
    Outstanding s op a0 a1 a2 → decode op = .instr i →
    (∀ rest, s.schedule = .core :: rest → step s = exec i { s with schedule := rest }) ∧
    (s.schedule = [] → step s = exec i s)

/-! ## The commands: each completes, with its result, its errors and its frame -/

/-- R100: NOP changes STATUS alone (and the phase). -/
def Obligations.NopChangesOnlyStatus : Prop :=
  decode 0x00000000#32 = .instr .nop ∧
  ∀ (s : State) (op a0 a1 a2 : Word), Outstanding s op a0 a1 a2 →
    exec .nop s = .next { s with status := 0x00000002#32, phase := .ready }

/-- R101: CRC writes RES0 with the remainder of `message·x^10` by the generator, nothing else but STATUS and the phase
changing; a message above 21 bits is ARG_RANGE. -/
def Obligations.CrcWritesThePolynomialRemainder : Prop :=
  decode 0x00000001#32 = .instr .crc ∧ crc 0x000000#21 = 0x000#10 ∧ crc 0x1FFFFF#21 = 0x3FF#10 ∧
  crc 0x000003#21 = 0x2D2#10 ∧
  ∀ (s : State) (op a0 a1 a2 : Word), Outstanding s op a0 a1 a2 →
    (a0.toNat ≤ 0x1FFFFF → ∃ r, Sys2Proof.Claims.IsRemainder (a0.setWidth 21) r ∧ r = crc (a0.setWidth 21) ∧
      exec .crc s = .next { s with res0 := r.setWidth 32, status := 0x00000002#32, phase := .ready }) ∧
    (0x1FFFFF < a0.toNat → exec .crc s = .next { s with status := 0x00000206#32, phase := .ready })

/-- R103: PARITY writes RES0 with 1 exactly when the number of 1 bits is odd. -/
def Obligations.ParityWritesOneForAnOddPopulation : Prop :=
  decode 0x00000002#32 = .instr .parity ∧
  ∀ (s : State) (op a0 a1 a2 : Word), Outstanding s op a0 a1 a2 →
    exec .parity s = .next { s with
      res0 := if (List.range 32).countP (fun k => a0.getLsbD k) % 2 = 1 then 1#32 else 0#32
      status := 0x00000002#32
      phase := .ready }

/-- R120: ENCCW writes RES0 with payload, CRC and parity in their places; a payload above 21 bits is ARG_RANGE. -/
def Obligations.EnccwWritesPayloadCrcParity : Prop :=
  decode 0x00000003#32 = .instr .enccw ∧
  ∀ (s : State) (op a0 a1 a2 : Word), Outstanding s op a0 a1 a2 →
    (a0.toNat ≤ 0x1FFFFF →
      exec .enccw s = .next { s with
        res0 := ((a0.setWidth 21 ++ crc (a0.setWidth 21)) ++ parity (a0.setWidth 21 ++ crc (a0.setWidth 21)))
        status := 0x00000002#32
        phase := .ready }) ∧
    (0x1FFFFF < a0.toNat → exec .enccw s = .next { s with status := 0x00000206#32, phase := .ready })

/-- R145: ENCASCII's checks in order, its UNINIT_READ, and its success: `pack`'s words from WORD_BUF[0] on, RES0 the count,
every other word and everything else unchanged. -/
def Obligations.EncasciiPacksTextIntoWords : Prop :=
  decode 0x00000004#32 = .instr .encascii ∧
  ∀ (s : State) (op a0 a1 a2 : Word), Outstanding s op a0 a1 a2 →
    ∀ n count : Nat, n = a1.toNat →
    count = Sys2Proof.Claims.messageCount n + (a0.toNat + Sys2Proof.Claims.messageCount n) / 16 →
    (15 < a0.toNat → exec .encascii s = .next { s with status := 0x00000206#32, phase := .ready }) ∧
    (a0.toNat ≤ 15 → (s.params.textMax < n ∨ s.params.wordMax < count) →
      exec .encascii s = .next { s with status := 0x00000406#32, phase := .ready }) ∧
    (a0.toNat ≤ 15 → n ≤ s.params.textMax → count ≤ s.params.wordMax →
      (∃ q, q < n ∧ Memory.read s.textBuf q = none) →
      exec .encascii s = .next { s with faultMark := some .uninitRead }) ∧
    (∀ text : List Byte, text.length = n → a0.toNat ≤ 15 → n ≤ s.params.textMax → count ≤ s.params.wordMax →
      (∀ q, q < n → Memory.read s.textBuf q = text[q]?) →
      ∃ t, exec .encascii s = .next t ∧
        t = { s with wordBuf := t.wordBuf, res0 := BitVec.ofNat 32 count, status := 0x00000002#32, phase := .ready } ∧
        (∀ k, k < count →
          Memory.read t.wordBuf k = (pack a0.toNat (text.map (fun b => b.extractLsb' 0 7))).1[k]?) ∧
        (∀ k, count ≤ k → Memory.read t.wordBuf k = Memory.read s.wordBuf k))

/-- R161: ADDROFF writes RES0 with `(address & 7) * 2`; an address above 21 bits is ARG_RANGE. -/
def Obligations.AddroffWritesTwiceTheFrame : Prop :=
  decode 0x00000005#32 = .instr .addroff ∧
  ∀ (s : State) (op a0 a1 a2 : Word), Outstanding s op a0 a1 a2 →
    (a0.toNat ≤ 0x1FFFFF →
      exec .addroff s = .next { s with res0 := (a0 &&& 7#32) * 2#32, status := 0x00000002#32, phase := .ready }) ∧
    (0x1FFFFF < a0.toNat → exec .addroff s = .next { s with status := 0x00000206#32, phase := .ready })

/-- R168: ENCTX's checks in order, its UNINIT_READ, and its success: the transmission's words from WORD_BUF[0] on, RES0 its
length, every other word and everything else unchanged. -/
def Obligations.EnctxBuildsTheTransmission : Prop :=
  decode 0x00000006#32 = .instr .enctx ∧
  ∀ (s : State) (op a0 a1 a2 : Word), Outstanding s op a0 a1 a2 →
    ∀ n count : Nat, n = a1.toNat → count = Sys2Proof.Claims.transmissionLength a0 n →
    (0x1FFFFF < a0.toNat → exec .enctx s = .next { s with status := 0x00000206#32, phase := .ready }) ∧
    (a0.toNat ≤ 0x1FFFFF → (s.params.textMax < n ∨ s.params.wordMax < count) →
      exec .enctx s = .next { s with status := 0x00000406#32, phase := .ready }) ∧
    (a0.toNat ≤ 0x1FFFFF → n ≤ s.params.textMax → count ≤ s.params.wordMax →
      (∃ q, q < n ∧ Memory.read s.textBuf q = none) →
      exec .enctx s = .next { s with faultMark := some .uninitRead }) ∧
    (∀ text : List Byte, text.length = n → a0.toNat ≤ 0x1FFFFF → n ≤ s.params.textMax → count ≤ s.params.wordMax →
      (∀ q, q < n → Memory.read s.textBuf q = text[q]?) →
      ∃ t, exec .enctx s = .next t ∧
        t = { s with wordBuf := t.wordBuf, res0 := BitVec.ofNat 32 count, status := 0x00000002#32, phase := .ready } ∧
        (∀ k, k < count → Memory.read t.wordBuf k =
          (encodeTransmission (a0.setWidth 21) (text.map (fun b => b.extractLsb' 0 7)))[k]?) ∧
        (∀ k, count ≤ k → Memory.read t.wordBuf k = Memory.read s.wordBuf k))

/-- R171: TXLEN writes RES0 with R170's length for any character count; an address above 21 bits is ARG_RANGE. -/
def Obligations.TxlenWritesTheTransmissionLength : Prop :=
  decode 0x00000007#32 = .instr .txlen ∧
  ∀ (s : State) (op a0 a1 a2 : Word), Outstanding s op a0 a1 a2 →
    (a0.toNat ≤ 0x1FFFFF →
      Sys2Proof.Claims.transmissionLength a0 a1.toNat < 2 ^ 32 ∧
      exec .txlen s = .next { s with
        res0 := BitVec.ofNat 32 (Sys2Proof.Claims.transmissionLength a0 a1.toNat)
        status := 0x00000002#32
        phase := .ready }) ∧
    (0x1FFFFF < a0.toNat → exec .txlen s = .next { s with status := 0x00000206#32, phase := .ready })

/-- R191: PCMLEN writes RES0 with the exact byte count; a zero rate is RATE, a count above 32 bits ARITH_OVERFLOW. -/
def Obligations.PcmlenWritesTheByteCount : Prop :=
  decode 0x00000008#32 = .instr .pcmlen ∧
  ∀ (s : State) (op a0 a1 a2 : Word), Outstanding s op a0 a1 a2 →
    ((a0.toNat = 0 ∨ a1.toNat = 0) → exec .pcmlen s = .next { s with status := 0x00000306#32, phase := .ready }) ∧
    (a0.toNat ≠ 0 → a1.toNat ≠ 0 → 0xFFFFFFFF < Sys2Proof.Claims.byteCount a0.toNat a1.toNat a2.toNat →
      exec .pcmlen s = .next { s with status := 0x00000506#32, phase := .ready }) ∧
    (a0.toNat ≠ 0 → a1.toNat ≠ 0 → Sys2Proof.Claims.byteCount a0.toNat a1.toNat a2.toNat ≤ 0xFFFFFFFF →
      exec .pcmlen s = .next { s with
        res0 := BitVec.ofNat 32 (Sys2Proof.Claims.byteCount a0.toNat a1.toNat a2.toNat)
        status := 0x00000002#32
        phase := .ready })

/-- R198 (with R194–R196): PCMENC's checks in order, its UNINIT_READ, and its success: sample `i` is the level of global bit
`((i·38400) div sr) div R`, low byte first, from PCM_BUF[0] on; RES0 the byte count; every other byte and everything else
unchanged. -/
def Obligations.PcmencModulatesWordsIntoBytes : Prop :=
  decode 0x00000009#32 = .instr .pcmenc ∧
  ∀ (s : State) (op a0 a1 a2 : Word), Outstanding s op a0 a1 a2 →
    ∀ sr baud wc b : Nat, sr = a0.toNat → baud = a1.toNat → wc = a2.toNat → b = Sys2Proof.Claims.byteCount sr baud wc →
    ((sr = 0 ∨ baud = 0 ∨ 38400 % baud ≠ 0) →
      exec .pcmenc s = .next { s with status := 0x00000306#32, phase := .ready }) ∧
    (sr ≠ 0 → baud ≠ 0 → 38400 % baud = 0 → 0xFFFFFFFF < b →
      exec .pcmenc s = .next { s with status := 0x00000506#32, phase := .ready }) ∧
    (sr ≠ 0 → baud ≠ 0 → 38400 % baud = 0 → b ≤ 0xFFFFFFFF → (s.params.wordMax < wc ∨ s.params.pcmMax < b) →
      exec .pcmenc s = .next { s with status := 0x00000406#32, phase := .ready }) ∧
    (sr ≠ 0 → baud ≠ 0 → 38400 % baud = 0 → b ≤ 0xFFFFFFFF → wc ≤ s.params.wordMax → b ≤ s.params.pcmMax →
      (∃ k, k < wc ∧ Memory.read s.wordBuf k = none) →
      exec .pcmenc s = .next { s with faultMark := some .uninitRead }) ∧
    (sr ≠ 0 → baud ≠ 0 → 38400 % baud = 0 → b ≤ 0xFFFFFFFF → wc ≤ s.params.wordMax → b ≤ s.params.pcmMax →
      (∀ k, k < wc → Memory.read s.wordBuf k ≠ none) →
      ∃ t, exec .pcmenc s = .next t ∧
        t = { s with pcmBuf := t.pcmBuf, res0 := BitVec.ofNat 32 b, status := 0x00000002#32, phase := .ready } ∧
        (∀ i g, i < b / 2 → g = (i * 38400 / sr) / (38400 / baud) →
          ∃ w, Memory.read s.wordBuf (g / 32) = some w ∧
            Memory.read t.pcmBuf (2 * i) = some (if w.getLsbD (31 - g % 32) then 0x01#8 else 0xFF#8) ∧
            Memory.read t.pcmBuf (2 * i + 1) = some (if w.getLsbD (31 - g % 32) then 0xC0#8 else 0x3F#8)) ∧
        (∀ k, b ≤ k → Memory.read t.pcmBuf k = Memory.read s.pcmBuf k))

/-! ## All commands -/

/-- What no command's completion touches: CMD, ARG0–ARG2, TEXT_BUF, the parameters, and the model's schedule, read data and
draws; WORD_BUF but by ENCASCII and ENCTX, PCM_BUF but by PCMENC; RES0 by NOP (R28, R31, R61). -/
def Obligations.CompletionFrameOfEveryCommand : Prop :=
  ∀ (i : Instr) (s t : State), exec i s = .next t →
    t.cmd = s.cmd ∧ t.arg0 = s.arg0 ∧ t.arg1 = s.arg1 ∧ t.arg2 = s.arg2 ∧ t.textBuf = s.textBuf ∧
    t.params = s.params ∧ t.schedule = s.schedule ∧ t.readData = s.readData ∧ t.draws = s.draws ∧
    (i ≠ .encascii → i ≠ .enctx → ∀ k, Memory.read t.wordBuf k = Memory.read s.wordBuf k) ∧
    (i ≠ .pcmenc → ∀ k, Memory.read t.pcmBuf k = Memory.read s.pcmBuf k) ∧
    (i = .nop → t.res0 = s.res0)

/-- R221: when a command completes with an error, only STATUS and the phase change; and an UNINIT_READ changes the fault mark
alone (R231). -/
def Obligations.ErrorsArePrecise : Prop :=
  ∀ (i : Instr) (s t : State), exec i s = .next t →
    (t.faultMark = none → errFlag t.status = true →
      t = { s with status := t.status, phase := .ready } ∧ busyFlag t.status = false ∧ doneFlag t.status = true ∧
      1 ≤ (errcodeField t.status).toNat ∧ (errcodeField t.status).toNat ≤ 5) ∧
    (t.faultMark ≠ none → t = { s with faultMark := some .uninitRead })

/-- R43: every outstanding command completes in one step: with the phase Ready and STATUS one of the values of success and the
five errors, or with the mark UNINIT_READ; and it is enabled exactly when outstanding. -/
def Obligations.EveryOutstandingCommandCompletes : Prop :=
  ∀ (i : Instr) (s : State),
    ((∃ t, exec i s = .next t) ↔ ∃ op a0 a1 a2, Outstanding s op a0 a1 a2) ∧
    ∀ t, exec i s = .next t →
      t.faultMark = some .uninitRead ∨
      (t.faultMark = none ∧ t.phase = .ready ∧
        (t.status = 0x00000002#32 ∨ t.status = 0x00000206#32 ∨ t.status = 0x00000306#32 ∨
         t.status = 0x00000406#32 ∨ t.status = 0x00000506#32))

/-- R44: a command's outcome is a function of its operands, TEXT_BUF, WORD_BUF and the capacities alone: two states that
agree on them give the same mark, WORD_BUF, STATUS, result, and element writes to PCM_BUF. -/
def Obligations.OutcomeDependsOnOperandsAndInputBuffers : Prop :=
  ∀ (i : Instr) (s₁ s₂ t₁ t₂ : State) (op₁ op₂ a0 a1 a2 : Word),
    Outstanding s₁ op₁ a0 a1 a2 → Outstanding s₂ op₂ a0 a1 a2 →
    s₁.params = s₂.params → s₁.textBuf = s₂.textBuf → s₁.wordBuf = s₂.wordBuf →
    exec i s₁ = .next t₁ → exec i s₂ = .next t₂ →
    t₁.faultMark = t₂.faultMark ∧ t₁.wordBuf = t₂.wordBuf ∧
    (t₁.faultMark = none → t₁.status = t₂.status ∧
      (t₁.status = 0x00000002#32 → i ≠ .nop → t₁.res0 = t₂.res0)) ∧
    (∀ k, Memory.read t₁.pcmBuf k = Memory.read t₂.pcmBuf k ∨
      (Memory.read t₁.pcmBuf k = Memory.read s₁.pcmBuf k ∧ Memory.read t₂.pcmBuf k = Memory.read s₂.pcmBuf k))

/-- R85: a command ignores the operands R87 does not list for it, whatever they hold. -/
def Obligations.UnlistedOperandsAreIgnored : Prop :=
  ∀ (i : Instr) (s t : State) (op a0 a1 a2 b0 b1 b2 : Word),
    (0 < Sys2Proof.Claims.operandsRead i → a0 = b0) → (1 < Sys2Proof.Claims.operandsRead i → a1 = b1) →
    (2 < Sys2Proof.Claims.operandsRead i → a2 = b2) →
    exec i { s with phase := .busy op a0 a1 a2 } = .next t →
    exec i { s with phase := .busy op b0 b1 b2 } =
      .next { t with phase := if t.phase = .ready then .ready else .busy op b0 b1 b2 }

/-! ## Host accesses -/

/-- R42: a host write of `v` to CMD in phase Ready starts a command: CMD, STATUS and the phase change, nothing else. -/
def Obligations.CmdWriteStartsACommand : Prop :=
  ∀ (s : State) (v : Word) (rest : List Event),
    Turn s (.write 0x000000#21 4 v) rest → s.phase = .ready →
    step s = .next { s with
      schedule := rest
      cmd := v
      status := 0x00000001#32
      phase := .busy v s.arg0 s.arg1 s.arg2 }

/-- R54, for the operand registers and the three buffers, in phase Ready: the value lands where R51 maps the offset, the byte at
the lowest offset in bits 7:0 (R57), and nothing else changes. -/
def Obligations.HostWriteStoresAtTheMappedElement : Prop :=
  ∀ (s : State) (off : Offset) (v : Word) (rest : List Event),
    Turn s (.write off 4 v) rest → s.phase = .ready → off.toNat % 4 = 0 →
    (off.toNat = 0x008 → step s = .next { s with schedule := rest, arg0 := v }) ∧
    (off.toNat = 0x00C → step s = .next { s with schedule := rest, arg1 := v }) ∧
    (off.toNat = 0x010 → step s = .next { s with schedule := rest, arg2 := v }) ∧
    (∀ i, off.toNat = 0x010000 + i → i < 0x10000 → i < s.params.textMax →
      ∃ t, step s = .next t ∧ t = { s with schedule := rest, textBuf := t.textBuf } ∧
        (∀ j, j < 4 → Memory.read t.textBuf (i + j) = some (v.extractLsb' (8 * j) 8)) ∧
        (∀ k, k < i ∨ i + 4 ≤ k → Memory.read t.textBuf k = Memory.read s.textBuf k)) ∧
    (∀ k, off.toNat = 0x020000 + 4 * k → 4 * k < 0x10000 → k < s.params.wordMax →
      ∃ t, step s = .next t ∧ t = { s with schedule := rest, wordBuf := t.wordBuf } ∧
        Memory.read t.wordBuf k = some v ∧
        (∀ j, j ≠ k → Memory.read t.wordBuf j = Memory.read s.wordBuf j)) ∧
    (∀ i, off.toNat = 0x100000 + i → i < s.params.pcmMax →
      ∃ t, step s = .next t ∧ t = { s with schedule := rest, pcmBuf := t.pcmBuf } ∧
        (∀ j, j < 4 → Memory.read t.pcmBuf (i + j) = some (v.extractLsb' (8 * j) 8)) ∧
        (∀ k, k < i ∨ i + 4 ≤ k → Memory.read t.pcmBuf k = Memory.read s.pcmBuf k))

/-- R55 where every element read is written, in phase Ready: the register, the word, or the four bytes with the lowest in
bits 7:0 (R57); only the read's own fields change. -/
def Obligations.HostReadReturnsTheMappedElement : Prop :=
  ∀ (s : State) (off : Offset) (rest : List Event),
    Turn s (.read off 4) rest → s.phase = .ready → off.toNat % 4 = 0 →
    ∀ v : Word,
      ((off.toNat = 0x000 ∧ v = s.cmd) ∨ (off.toNat = 0x004 ∧ v = s.status) ∨ (off.toNat = 0x008 ∧ v = s.arg0) ∨
       (off.toNat = 0x00C ∧ v = s.arg1) ∨ (off.toNat = 0x010 ∧ v = s.arg2) ∨ (off.toNat = 0x014 ∧ v = s.res0) ∨
       (∃ i, off.toNat = 0x010000 + i ∧ i < 0x10000 ∧ i < s.params.textMax ∧
         ∀ j, j < 4 → Memory.read s.textBuf (i + j) = some (v.extractLsb' (8 * j) 8)) ∨
       (∃ k, off.toNat = 0x020000 + 4 * k ∧ 4 * k < 0x10000 ∧ k < s.params.wordMax ∧
         Memory.read s.wordBuf k = some v) ∨
       (∃ i, off.toNat = 0x100000 + i ∧ i < s.params.pcmMax ∧
         ∀ j, j < 4 → Memory.read s.pcmBuf (i + j) = some (v.extractLsb' (8 * j) 8))) →
      step s = .next { s with schedule := rest, readData := some v, draws := s.draws + 1 }

/-- R55, R56, I13: a host read of an unwritten word returns the draw, the bytes of a partly written transfer that are written
read as written, and the next read has a draw of its own. The draw is a free value (log 4): this holds whatever it is. -/
def Obligations.UnwrittenElementsReadAsTheDraw : Prop :=
  ∀ (s : State) (off : Offset) (rest : List Event),
    Turn s (.read off 4) rest → s.phase = .ready → off.toNat % 4 = 0 →
    (∀ k, off.toNat = 0x020000 + 4 * k → 4 * k < 0x10000 → k < s.params.wordMax → Memory.read s.wordBuf k = none →
      step s = .next { s with
        schedule := rest, readData := some (Config.draw s.draws), draws := s.draws + 1 }) ∧
    (∀ i, off.toNat = 0x010000 + i → i < 0x10000 → i < s.params.textMax →
      ∃ v : Word, step s = .next { s with schedule := rest, readData := some v, draws := s.draws + 1 } ∧
        ∀ j, j < 4 → v.extractLsb' (8 * j) 8 =
          (Memory.read s.textBuf (i + j)).getD ((Config.draw s.draws).extractLsb' (8 * j) 8)) ∧
    (∀ i, off.toNat = 0x100000 + i → i < s.params.pcmMax →
      ∃ v : Word, step s = .next { s with schedule := rest, readData := some v, draws := s.draws + 1 } ∧
        ∀ j, j < 4 → v.extractLsb' (8 * j) 8 =
          (Memory.read s.pcmBuf (i + j)).getD ((Config.draw s.draws).extractLsb' (8 * j) 8))

/-- R63: a host read returns the value of the last write to the same element. First, a write to any implemented target but CMD,
directly followed by a read of the same offset, reads the value written. Then in full: where a step writes an element, be it the
Host's or the Core's, and any number of steps follow, none of them a reset or a write to that element, a legal read that covers
the element finds the value written in its part of the transfer. -/
def Obligations.HostReadReturnsTheLastWrite : Prop :=
  (∀ (s : State) (off : Offset) (v : Word) (rest : List Event),
    s.faultMark = none → s.schedule = .write off 4 v :: .read off 4 :: rest → s.phase = .ready →
    off.toNat ≠ 0 → ¬ Sys2Proof.Claims.BreaksBusRule s.params off 4 true →
    ∃ t u, step s = .next t ∧ step t = .next u ∧ u.readData = some v ∧ u.faultMark = none ∧ u.schedule = rest) ∧
  ∀ (s t u : State) (k : Nat) (e : Sys2Proof.Claims.Element) (v : Word) (off : Offset) (rest : List Event),
    step s = .next t → Sys2Proof.Claims.Writes s e v → Sys2Proof.core.run k t = .next u →
    (∀ j w, j < k → Sys2Proof.core.run j t = .next w →
      (∀ r, w.schedule ≠ .reset :: r) ∧ ∀ v', ¬ Sys2Proof.Claims.Writes w e v') →
    Turn u (.read off 4) rest → (u.phase = .ready ∨ off.toNat = 0x004) →
    ¬ Sys2Proof.Claims.BreaksBusRule u.params off 4 false → Sys2Proof.Claims.partOf off 0#32 e ≠ none →
    ∃ x, step u = .next { u with schedule := rest, readData := some x, draws := u.draws + 1 } ∧
      Sys2Proof.Claims.partOf off x e = some v

/-- R58: a host access that breaks the rule sets the mark BUS_FAULT, in every phase (so it takes precedence over a protocol
fault), and does nothing else; an access that does not break it sets no BUS_FAULT. -/
def Obligations.BusFaultExactlyWhenTheAccessBreaksTheRule : Prop :=
  ∀ (s : State) (off : Offset) (size : Nat) (v : Word) (rest : List Event),
    (Turn s (.read off size) rest →
      (Sys2Proof.Claims.BreaksBusRule s.params off size false →
        step s = .next { s with schedule := rest, faultMark := some .busFault }) ∧
      (¬ Sys2Proof.Claims.BreaksBusRule s.params off size false →
        ∃ t, step s = .next t ∧ t.faultMark ≠ some .busFault)) ∧
    (Turn s (.write off size v) rest →
      (Sys2Proof.Claims.BreaksBusRule s.params off size true →
        step s = .next { s with schedule := rest, faultMark := some .busFault }) ∧
      (¬ Sys2Proof.Claims.BreaksBusRule s.params off size true →
        ∃ t, step s = .next t ∧ t.faultMark ≠ some .busFault))

/-- R239: while Busy, an access that is no bus fault and no read of STATUS sets the mark HOST_PROTOCOL and does nothing else;
a read of STATUS returns STATUS. -/
def Obligations.BusyCoreAllowsOnlyStatusReads : Prop :=
  ∀ (s : State) (op a0 a1 a2 : Word) (off : Offset) (v : Word) (rest : List Event),
    Outstanding s op a0 a1 a2 →
    (s.schedule = .write off 4 v :: rest → ¬ Sys2Proof.Claims.BreaksBusRule s.params off 4 true →
      step s = .next { s with schedule := rest, faultMark := some .hostProtocol }) ∧
    (s.schedule = .read off 4 :: rest → ¬ Sys2Proof.Claims.BreaksBusRule s.params off 4 false → off.toNat ≠ 0x004 →
      step s = .next { s with schedule := rest, faultMark := some .hostProtocol }) ∧
    (s.schedule = .read 0x000004#21 4 :: rest →
      step s = .next { s with schedule := rest, readData := some s.status, draws := s.draws + 1 })

/-- The window's map at every offset the Host can name, and its place in the platform (R50, R51): two different aligned offsets
never reach the same element, and the platform address `CORE_BASE + off` is offset `off`. -/
def Obligations.WindowMapIsInjective : Prop :=
  ∀ (p : Config.Params) (off₁ off₂ : Offset) (t : Target),
    (accessTarget p off₁ 4 = some t → accessTarget p off₂ 4 = some t → off₁ = off₂) ∧
    windowOffset p (p.coreBase + off₁.toNat) = some off₁

/-! ## Faults, reset, the run -/

/-- R39, R229: from a state whose fault mark is set no agent steps; only a reset leaves it. -/
def Obligations.FaultedStateStopsEveryAgent : Prop :=
  ∀ (s : State) (k : FaultMark), s.faultMark = some k →
    ((∀ rest, s.schedule ≠ .reset :: rest) → step s = .fault (.marked k)) ∧
    (∀ i, exec i s = .fault (.marked k)) ∧
    (∀ rest, s.schedule = .reset :: rest → ∃ t, step s = .next t ∧ t.faultMark = none)

/-- R250, R251: a reset, in any phase and from any state, sets every piece of the hardware's state to its reset value; the
parameters and the rest of the schedule stay (the model's choice, log 13). -/
def Obligations.ResetSetsEveryPieceOfState : Prop :=
  ∀ (s : State) (rest : List Event), s.schedule = .reset :: rest →
    ∃ t, step s = .next t ∧ t.cmd = 0#32 ∧ t.status = 0#32 ∧ t.arg0 = 0#32 ∧ t.arg1 = 0#32 ∧ t.arg2 = 0#32 ∧
      t.res0 = 0#32 ∧ (∀ k, Memory.read t.textBuf k = none) ∧ (∀ k, Memory.read t.wordBuf k = none) ∧
      (∀ k, Memory.read t.pcmBuf k = none) ∧ t.phase = .ready ∧ t.faultMark = none ∧ t.params = s.params ∧
      t.schedule = rest

/-- R40: the state after reset. -/
def Obligations.ResetStateHoldsTheResetValues : Prop :=
  State.reset.cmd = 0x00000000#32 ∧ State.reset.status = 0x00000000#32 ∧ State.reset.arg0 = 0x00000000#32 ∧
  State.reset.arg1 = 0x00000000#32 ∧ State.reset.arg2 = 0x00000000#32 ∧ State.reset.res0 = 0x00000000#32 ∧
  (∀ k, Memory.read State.reset.textBuf k = none ∧ Memory.read State.reset.wordBuf k = none ∧
    Memory.read State.reset.pcmBuf k = none) ∧
  State.reset.phase = .ready ∧ State.reset.faultMark = none

/-- R238: in phase Ready with nothing to happen, the core holds all its state (that a step then answers the same state is the
model's choice, log 2). -/
def Obligations.IdleCoreHoldsItsState : Prop :=
  ∀ s : State, s.phase = .ready → s.faultMark = none → s.schedule = [] → step s = .next s

/-- R41: the phase changes only through command start, command completion and reset. That a completion also comes with an
empty schedule is the model's choice (log 2). -/
def Obligations.PhaseChangesOnlyByStartCompletionReset : Prop :=
  ∀ s t : State, step s = .next t → t.phase ≠ s.phase →
    (∃ rest, s.schedule = .reset :: rest) ∨
    (s.phase = .ready ∧ s.faultMark = none ∧ ∃ v rest, s.schedule = .write 0x000000#21 4 v :: rest ∧
      t.phase = .busy v s.arg0 s.arg1 s.arg2) ∨
    (s.isBusy = true ∧ s.faultMark = none ∧ t.phase = .ready ∧ doneFlag t.status = true ∧
      (s.schedule = [] ∨ ∃ rest, s.schedule = .core :: rest))

/-- R21, R28, R31: but for reset, CMD and each ARG register change only by a host write to them, and RES0 only at the
successful completion of a command. -/
def Obligations.RegistersChangeOnlyByTheirOwner : Prop :=
  ∀ s t : State, step s = .next t → (∀ rest, s.schedule ≠ .reset :: rest) →
    (t.cmd ≠ s.cmd → ∃ rest, s.schedule = .write 0x000000#21 4 t.cmd :: rest) ∧
    (t.arg0 ≠ s.arg0 → ∃ rest, s.schedule = .write 0x000008#21 4 t.arg0 :: rest) ∧
    (t.arg1 ≠ s.arg1 → ∃ rest, s.schedule = .write 0x00000C#21 4 t.arg1 :: rest) ∧
    (t.arg2 ≠ s.arg2 → ∃ rest, s.schedule = .write 0x000010#21 4 t.arg2 :: rest) ∧
    (t.res0 ≠ s.res0 → s.isBusy = true ∧ t.status = 0x00000002#32 ∧
      (s.schedule = [] ∨ ∃ rest, s.schedule = .core :: rest))

/-! ## Invariants -/

/-- Every step keeps the buffers in their canonical form and within their capacities, and the parameters legal (R36, R52, R7). -/
def Obligations.EveryStepKeepsTheMemoriesCanonical : Prop :=
  ∀ s t : State, MemoryOk s → step s = .next t → MemoryOk t

/-- Every step keeps STATUS as R23–R27 say it is: BUSY with the phase, ERR with ERRCODE, the reserved bits 0. -/
def Obligations.EveryStepKeepsStatusConsistent : Prop :=
  ∀ s t : State, StatusOk s → step s = .next t → StatusOk t

/-- R263: every step keeps CMD and ARG0–ARG2 equal to the outstanding command's word and operands, and the protocol and
uninitialised-read marks with an outstanding command (R239, R56). -/
def Obligations.EveryStepKeepsOperandsStable : Prop :=
  ∀ s t : State, OperandsStable s → MarkOk s → step s = .next t → OperandsStable t ∧ MarkOk t

/-- The invariants hold at reset. -/
def Obligations.InvariantsHoldAtReset : Prop :=
  MemoryOk State.reset ∧ StatusOk State.reset ∧ OperandsStable State.reset ∧ MarkOk State.reset

/-- R262: a Busy core completes. Whatever number of STATUS reads the Host polls with, the step after the last of them completes
the command, or marks UNINIT_READ. That the Core has every turn once the schedule is empty is the model's choice (log 2), its form
of R262's weak fairness. -/
def Obligations.PolledCommandCompletes : Prop :=
  ∀ (n : Nat) (s : State) (op a0 a1 a2 : Word),
    Outstanding s op a0 a1 a2 → s.schedule = List.replicate n (.read 0x000004#21 4) →
    ∃ t, Sys2Proof.core.run (n + 1) s = .next t ∧
      ((t.phase = .ready ∧ t.faultMark = none ∧ busyFlag t.status = false ∧ doneFlag t.status = true) ∨
       t.faultMark = some .uninitRead)

/-! ## The functions behind the commands -/

/-- R101: the remainder is unique, and `crc` is it. -/
def Obligations.CrcIsTheUniqueRemainder : Prop :=
  ∀ (m : BitVec 21) (r : BitVec 10), Sys2Proof.Claims.IsRemainder m r ↔ r = crc m

/-- R102: the CRC is linear over XOR, so it is the XOR of the basis values of the message's set bits. -/
def Obligations.CrcIsLinear : Prop :=
  (∀ a b : BitVec 21, crc (a ^^^ b) = crc a ^^^ crc b) ∧
  ∀ m : BitVec 21, crc m =
    (List.range 21).foldl (fun r k => if m.getLsbD k then r ^^^ crc (1#21 <<< k) else r) 0#10

/-- R104: parity is linear over XOR, and appending it makes the population even. -/
def Obligations.ParityIsLinearAndEvensThePopulation : Prop :=
  (∀ a b : Word, parity (a ^^^ b) = parity a ^^^ parity b) ∧
  ∀ v : BitVec 31, popcount (v.setWidth 32 <<< 1 ||| (parity v).setWidth 32) % 2 = 0

/-- R121: every codeword has an even population and carries its payload and CRC; encoding is injective and linear. -/
def Obligations.CodewordCarriesPayloadAndCrcWithEvenPopulation : Prop :=
  (∀ p : BitVec 21, popcount (encodeCodeword p) % 2 = 0 ∧ (encodeCodeword p).extractLsb' 11 21 = p ∧
    (encodeCodeword p).extractLsb' 1 10 = crc p) ∧
  (∀ p q : BitVec 21, encodeCodeword p = encodeCodeword q → p = q) ∧
  ∀ a b : BitVec 21, encodeCodeword (a ^^^ b) = encodeCodeword a ^^^ encodeCodeword b

/-- R122: a word is a valid codeword if and only if its CRC field is right and its population is even. -/
def Obligations.ValidCodewordMeansRightCrcAndEvenPopulation : Prop :=
  ∀ w : Word, (validCodeword w = true ↔ w = encodeCodeword (w.extractLsb' 11 21)) ∧
    (w = encodeCodeword (w.extractLsb' 11 21) ↔
      w.extractLsb' 1 10 = crc (w.extractLsb' 11 21) ∧ popcount w % 2 = 0)

/-- R92, R93, R94: the constants the model emits. SYNC and IDLE have the values the spec gives and are the codewords of the
payloads, CRCs and parities it gives, 16 bits apart; the preamble is 18 words, none of them a codeword. -/
def Obligations.ConstantWordsAreAsComputed : Prop :=
  Config.sync = 0x7CD215D8#32 ∧ Config.sync = encodeCodeword 0x0F9A42#21 ∧ crc 0x0F9A42#21 = 0x2EC#10 ∧
  Config.sync.getLsbD 31 = false ∧ Config.sync.getLsbD 0 = false ∧ popcount Config.sync = 16 ∧
  Config.idle = 0x7A89C197#32 ∧ Config.idle = encodeCodeword 0x0F5138#21 ∧ crc 0x0F5138#21 = 0x0CB#10 ∧
  Config.idle.getLsbD 31 = false ∧ Config.idle.getLsbD 0 = true ∧ popcount Config.idle = 16 ∧
  popcount (Config.sync ^^^ Config.idle) = 16 ∧
  Config.preambleWord = 0xAAAAAAAA#32 ∧ Config.preambleWords = 18 ∧ validCodeword Config.preambleWord = false ∧
  Config.preambleWord.extractLsb' 1 10 = 0x155#10 ∧ crc 0x155555#21 = 0x38D#10

/-- R144: how many words `pack` emits, and the batch position it returns. -/
def Obligations.PackEmitsTheCountedWords : Prop :=
  ∀ (offset : Nat) (chars : List (BitVec 7)), offset ≤ 15 →
    (pack offset chars).1.countP (fun w => w != 0x7CD215D8#32) = Sys2Proof.Claims.messageCount chars.length ∧
    (pack offset chars).1.countP (fun w => w == 0x7CD215D8#32) =
      (offset + Sys2Proof.Claims.messageCount chars.length) / 16 ∧
    (pack offset chars).1.length =
      Sys2Proof.Claims.messageCount chars.length + (offset + Sys2Proof.Claims.messageCount chars.length) / 16 ∧
    (pack offset chars).2 = (offset + Sys2Proof.Claims.messageCount chars.length) % 16

/-- R141, R143: the data bits of the `k`-th message word are bits `20k … 20k+19` of the text's bit string, bit 0 of each
character first, the first bit in codeword bit 30, and 0 past the end; every message word is a valid codeword. -/
def Obligations.PackPlacesEveryTextBit : Prop :=
  ∀ (offset : Nat) (chars : List (BitVec 7)), offset ≤ 15 →
    ((pack offset chars).1.filter (fun w => w.getLsbD 31)).length = Sys2Proof.Claims.messageCount chars.length ∧
    ∀ k, k < Sys2Proof.Claims.messageCount chars.length →
      ∃ w, ((pack offset chars).1.filter (fun w => w.getLsbD 31))[k]? = some w ∧ validCodeword w = true ∧
        ∀ j, j < 20 → w.getLsbD (30 - j) = Sys2Proof.Claims.textBit chars (20 * k + j)

/-- R142: SYNC stands exactly where the running batch position reaches 16, and every other word is a message word. -/
def Obligations.PackInsertsSyncEverySixteenWords : Prop :=
  ∀ (offset : Nat) (chars : List (BitVec 7)), offset ≤ 15 →
    ∀ (j : Nat) (w : Word), (pack offset chars).1[j]? = some w →
      (w = 0x7CD215D8#32 ↔ (offset + j) % 17 = 16) ∧ (w ≠ 0x7CD215D8#32 → w.getLsbD 31 = true)

/-- R172: the transmission has exactly the calculated length. -/
def Obligations.TransmissionHasTheCalculatedLength : Prop :=
  ∀ (a : BitVec 21) (chars : List (BitVec 7)),
    (encodeTransmission a chars).length = txlen a chars.length ∧
    txlen a chars.length = Sys2Proof.Claims.transmissionLength (a.setWidth 32) chars.length

/-- R95, R169: the layout of every transmission: preamble; a SYNC every 17 words and none elsewhere; only valid codewords after
the preamble; the address word in its frame. R164: its words in order: preamble, SYNC, `off` IDLE words, the address word,
`pack`'s words (R141–R144 say which), and `16 - pos` IDLE words to the end, the terminator and the padding (R165, R166). -/
def Obligations.TransmissionHasTheBatchLayout : Prop :=
  ∀ (a : BitVec 21) (chars : List (BitVec 7)) (off : Nat), off = a.toNat % 8 * 2 →
    (∀ i, i < 18 → (encodeTransmission a chars)[i]? = some 0xAAAAAAAA#32) ∧
    (∃ b, 0 < b ∧ (encodeTransmission a chars).length = 18 + 17 * b ∧
      ∀ j, j < b → (encodeTransmission a chars)[18 + 17 * j]? = some 0x7CD215D8#32 ∧
        ∀ p, p < 16 → ∃ w, (encodeTransmission a chars)[19 + 17 * j + p]? = some w ∧ w ≠ 0x7CD215D8#32) ∧
    (∀ i w, 18 ≤ i → (encodeTransmission a chars)[i]? = some w → validCodeword w = true) ∧
    (∀ i, 19 ≤ i → i < 19 + off → (encodeTransmission a chars)[i]? = some 0x7A89C197#32) ∧
    off + 1 ≤ 15 ∧
    (encodeTransmission a chars)[19 + off]? = some (encodeCodeword (BitVec.ofNat 21 (a.toNat / 8 * 4 + 3))) ∧
    (∀ j, j < (pack (off + 1) chars).1.length →
      (encodeTransmission a chars)[20 + off + j]? = (pack (off + 1) chars).1[j]?) ∧
    (∀ i, 20 + off + (pack (off + 1) chars).1.length ≤ i → i < (encodeTransmission a chars).length →
      (encodeTransmission a chars)[i]? = some 0x7A89C197#32) ∧
    (pack (off + 1) chars).2 ≤ 15 ∧
    (encodeTransmission a chars).length =
      20 + off + (pack (off + 1) chars).1.length + (16 - (pack (off + 1) chars).2)

/-- R167: the length of each of the framer's phases is fixed by the operands, and the run ends at a multiple of 17 words since
the first SYNC. -/
def Obligations.FramerPhaseLengthsAreCountDriven : Prop :=
  ∀ (a : BitVec 21) (chars : List (BitVec 7)) (off n : Nat), off = a.toNat % 8 * 2 →
    n = Sys2Proof.Claims.messageCount chars.length →
    (framerWords a chars .preamble).length = 18 ∧ (framerWords a chars .addressPadding).length = off ∧
    (framerWords a chars .address).length = 1 ∧
    (framerWords a chars .messageBody).length = n + (off + 1 + n) / 16 ∧
    (framerWords a chars .terminator).length = 1 ∧
    (framerWords a chars .batchPadding).length = 15 - (off + 1 + n) % 16 ∧
    ((encodeTransmission a chars).length - 18) % 17 = 0

/-- R170: `txlen` by its formula, and its largest value. -/
def Obligations.TransmissionLengthIsBounded : Prop :=
  (∀ (a : BitVec 21) (n : Nat),
    txlen a n = 18 + 17 * (((a &&& 7#21).toNat * 2 + 1 + (7 * n + 19) / 20) / 16 + 1) ∧
    (n < 2 ^ 32 → txlen a n ≤ 1597191005)) ∧
  txlen 7#21 0xFFFFFFFF = 1597191005

/-- R195: output sample `i` is the intermediate sample at index `(i·38400) div sr`, and that index lies in the intermediate
sequence, which has `R` samples for each of the words' bits (R192, R194). -/
def Obligations.ResamplingIndexIsInRange : Prop :=
  Config.symbolRate = 38400 ∧
  ∀ (words : List Word) (sr baud i : Nat), 1 ≤ sr → 1 ≤ baud → Config.symbolRate % baud = 0 →
    i < pcmlen sr baud words.length / 2 →
    outputSample words sr baud i = intermediate words baud (i * Config.symbolRate / sr) ∧
    i * Config.symbolRate / sr < words.length * 32 * repeatsPerBit baud

/-- R197: the closed form of an output sample, in its two levels (R193). -/
def Obligations.OutputSampleHasTheClosedForm : Prop :=
  ∀ (words : List Word) (sr baud i g : Nat), 1 ≤ sr → 1 ≤ baud → 38400 % baud = 0 →
    i < pcmlen sr baud words.length / 2 → g = i * baud / sr →
    ∃ w, words[g / 32]? = some w ∧
      outputSample words sr baud i = if w.getLsbD (31 - g % 32) then 0xC001#16 else 0x3FFF#16

/-- R199: PCMENC's count is PCMLEN's for the same operands, and it is the number of bytes written. -/
def Obligations.PcmencCountEqualsPcmlenCount : Prop :=
  ∀ (s t u : State) (op a0 a1 a2 : Word), Outstanding s op a0 a1 a2 →
    exec .pcmenc s = .next t → t.status = 0x00000002#32 → t.faultMark = none → exec .pcmlen s = .next u →
    u.res0 = t.res0 ∧ u.status = 0x00000002#32 ∧
    ∃ words, t.pcmBuf = Memory.overwrite s.pcmBuf (pcmBytes words a0.toNat a1.toNat) ∧
      (pcmBytes words a0.toNat a1.toNat).length = t.res0.toNat
end

