-- ==== Sys2Proof/Laws/Memory.lean ====
section
/-! SUPPORT. The buffer memories: read after write, the canonical form kept, the capacity kept. -/

namespace Sys2Proof.Machine

variable {α : Type}

/-! ## Read after write -/

theorem Memory.read_write_same (m : Memory α) (i : Nat) (v : α) : Memory.read (Memory.write m i v) i = some v := by
  induction m with
  | nil => simp [Memory.write, Memory.read]
  | cons e rest ih =>
    obtain ⟨k, x⟩ := e
    unfold Memory.write
    split
    · simp [Memory.read]
    · split
      · simp [Memory.read]
      · rename_i h
        simpa [Memory.read, Ne.symm h] using ih

theorem Memory.read_write_other (m : Memory α) {i j : Nat} (v : α) (h : j ≠ i) :
    Memory.read (Memory.write m i v) j = Memory.read m j := by
  induction m with
  | nil => simp [Memory.write, Memory.read, Ne.symm h]
  | cons e rest ih =>
    obtain ⟨k, x⟩ := e
    unfold Memory.write
    split
    · simp [Memory.read, Ne.symm h]
    · split
      · rename_i hk
        subst hk
        simp [Memory.read, Ne.symm h]
      · simp [Memory.read, ih]

theorem Memory.read_write (m : Memory α) (i j : Nat) (v : α) :
    Memory.read (Memory.write m i v) j = if j = i then some v else Memory.read m j := by
  split
  · subst j
    exact Memory.read_write_same m i v
  · exact Memory.read_write_other m v ‹_›

@[simp] theorem Memory.block_length (i : Nat) (vs : List α) : (Memory.block i vs).length = vs.length := by
  induction vs generalizing i with
  | nil => rfl
  | cons v vs ih => simp [Memory.block, ih]

theorem Memory.read_block_append (i k : Nat) (vs : List α) (m : Memory α) (h : i ≤ k) :
    Memory.read (Memory.block i vs ++ m) k = if h' : k - i < vs.length then some vs[k - i] else Memory.read m k := by
  induction vs generalizing i with
  | nil => simp [Memory.block]
  | cons v vs ih =>
    by_cases hk : i = k
    · subst hk
      simp [Memory.block, Memory.read]
    · have h1 : i + 1 ≤ k := by omega
      have h2 : k - i = (k - (i + 1)) + 1 := by omega
      simp only [Memory.block, List.cons_append, Memory.read, hk, if_false, ih (i + 1) h1, List.length_cons, h2,
        Nat.add_lt_add_iff_right, List.getElem_cons_succ]

theorem Memory.read_filter_ge (m : Memory α) (n k : Nat) (h : n ≤ k) :
    Memory.read (m.filter (fun e => decide (n ≤ e.1))) k = Memory.read m k := by
  induction m with
  | nil => rfl
  | cons e rest ih =>
    obtain ⟨j, x⟩ := e
    by_cases hj : n ≤ j
    · simp [hj, Memory.read, ih]
    · have : j ≠ k := by omega
      simp [hj, Memory.read, ih, this]

/-- A command's output: the elements written, and every other element as before (R61). -/
theorem Memory.read_overwrite (m : Memory α) (vs : List α) (k : Nat) :
    Memory.read (Memory.overwrite m vs) k = if h : k < vs.length then some vs[k] else Memory.read m k := by
  unfold Memory.overwrite
  rw [Memory.read_block_append 0 k vs _ (Nat.zero_le k)]
  simp only [Nat.sub_zero]
  split
  · rfl
  · exact Memory.read_filter_ge m _ k (by omega)

@[simp] theorem Memory.overwrite_nil (m : Memory α) : Memory.overwrite m [] = m := by
  simp [Memory.overwrite, Memory.block]

/-- Reading back a host transfer to a byte buffer, byte by byte (R54, R57). -/
theorem Memory.read_writeWord (m : Memory Byte) (i : Nat) (v : Word) (k : Nat) :
    Memory.read (Memory.writeWord m i v) k =
      if k = i + 3 then some (v.extractLsb' 24 8)
      else if k = i + 2 then some (v.extractLsb' 16 8)
      else if k = i + 1 then some (v.extractLsb' 8 8)
      else if k = i then some (v.extractLsb' 0 8)
      else Memory.read m k := by
  simp only [Memory.writeWord, Memory.read_write]

/-! ## The canonical form -/

/-- The first index of a memory is above `i`, if it has one. -/
def Memory.startsAbove (i : Nat) : Memory α → Prop
  | [] => True
  | (k, _) :: _ => i < k

theorem Memory.wf_cons (k : Nat) (x : α) (rest : Memory α) :
    Memory.wf ((k, x) :: rest) = true ↔ Memory.startsAbove k rest ∧ Memory.wf rest = true := by
  cases rest with
  | nil => simp [Memory.wf, Memory.startsAbove]
  | cons e r =>
    obtain ⟨j, y⟩ := e
    simp [Memory.wf, Memory.startsAbove]

theorem Memory.startsAbove_write (m : Memory α) (b i : Nat) (v : α) (hb : b < i) (h : Memory.startsAbove b m) :
    Memory.startsAbove b (Memory.write m i v) := by
  cases m with
  | nil => exact hb
  | cons e rest =>
    obtain ⟨k, x⟩ := e
    unfold Memory.write
    split
    · exact hb
    · split
      · exact hb
      · exact h

theorem Memory.wf_write (m : Memory α) (i : Nat) (v : α) (h : Memory.wf m = true) :
    Memory.wf (Memory.write m i v) = true := by
  induction m with
  | nil => rfl
  | cons e rest ih =>
    obtain ⟨k, x⟩ := e
    have hr := (Memory.wf_cons k x rest).1 h
    unfold Memory.write
    split
    · exact (Memory.wf_cons _ _ _).2 ⟨‹i < k›, h⟩
    · split
      · rename_i hk
        subst hk
        exact (Memory.wf_cons _ _ _).2 hr
      · exact (Memory.wf_cons _ _ _).2 ⟨Memory.startsAbove_write rest k i v (by omega) hr.1, ih hr.2⟩

theorem Memory.wf_writeWord (m : Memory Byte) (i : Nat) (v : Word) (h : Memory.wf m = true) :
    Memory.wf (Memory.writeWord m i v) = true := by
  unfold Memory.writeWord
  exact Memory.wf_write _ _ _ (Memory.wf_write _ _ _ (Memory.wf_write _ _ _ (Memory.wf_write _ _ _ h)))

theorem Memory.filter_ge_startsAbove (m : Memory α) (n b : Nat) (hb : b < n) :
    Memory.startsAbove b (m.filter (fun e => decide (n ≤ e.1))) := by
  induction m with
  | nil => trivial
  | cons e rest ih =>
    obtain ⟨k, x⟩ := e
    by_cases hk : n ≤ k
    · simp only [List.filter_cons, hk, decide_true, if_true, Memory.startsAbove]
      omega
    · simpa [hk] using ih

theorem Memory.wf_filter_ge (m : Memory α) (n : Nat) (h : Memory.wf m = true) :
    Memory.wf (m.filter (fun e => decide (n ≤ e.1))) = true := by
  induction m with
  | nil => rfl
  | cons e rest ih =>
    obtain ⟨k, x⟩ := e
    have hr := (Memory.wf_cons k x rest).1 h
    by_cases hk : n ≤ k
    · have hall : ∀ (l : Memory α) (b : Nat), n ≤ b → Memory.wf l = true → Memory.startsAbove b l →
          l.filter (fun e => decide (n ≤ e.1)) = l := by
        intro l
        induction l with
        | nil => intros; rfl
        | cons e r ihl =>
          obtain ⟨j, y⟩ := e
          intro b hb hw hs
          have hjr := (Memory.wf_cons j y r).1 hw
          have hj : n ≤ j := by
            have : b < j := hs
            omega
          simp [hj, ihl j hj hjr.2 hjr.1]
      rw [List.filter_cons_of_pos (by simpa using hk), hall rest k hk hr.2 hr.1]
      exact h
    · simpa [hk] using ih hr.2

theorem Memory.wf_block_append (i : Nat) (vs : List α) (m : Memory α) (hm : Memory.wf m = true)
    (hs : ∀ b, b < i + vs.length → Memory.startsAbove b m) : Memory.wf (Memory.block i vs ++ m) = true := by
  induction vs generalizing i with
  | nil => exact hm
  | cons v vs ih =>
    have htail : Memory.wf (Memory.block (i + 1) vs ++ m) = true :=
      ih (i + 1) (fun b hb => hs b (by simp only [List.length_cons]; omega))
    refine (Memory.wf_cons _ _ _).2 ⟨?_, htail⟩
    cases vs with
    | nil => exact hs i (by simp)
    | cons w ws => exact Nat.lt_succ_self i

theorem Memory.wf_overwrite (m : Memory α) (vs : List α) (h : Memory.wf m = true) :
    Memory.wf (Memory.overwrite m vs) = true :=
  Memory.wf_block_append 0 vs _ (Memory.wf_filter_ge m _ h)
    (fun b hb => Memory.filter_ge_startsAbove m _ b (by omega))

/-! ## The capacity -/

theorem Memory.within_write (cap : Nat) (m : Memory α) (i : Nat) (v : α) (hi : i < cap)
    (h : Memory.within cap m = true) : Memory.within cap (Memory.write m i v) = true := by
  induction m with
  | nil => simp [Memory.write, Memory.within, hi]
  | cons e rest ih =>
    obtain ⟨k, x⟩ := e
    have hk : k < cap ∧ Memory.within cap rest = true := by simpa [Memory.within] using h
    unfold Memory.write
    split
    · simp only [Memory.within, List.all_cons, hi, hk.1, decide_true, Bool.true_and]
      exact hk.2
    · split
      · simp only [Memory.within, List.all_cons, hi, decide_true, Bool.true_and]
        exact hk.2
      · simp only [Memory.within, List.all_cons, hk.1, decide_true, Bool.true_and]
        exact ih hk.2

theorem Memory.within_writeWord (cap : Nat) (m : Memory Byte) (i : Nat) (v : Word) (hi : i + 3 < cap)
    (h : Memory.within cap m = true) : Memory.within cap (Memory.writeWord m i v) = true := by
  unfold Memory.writeWord
  exact Memory.within_write _ _ _ _ hi (Memory.within_write _ _ _ _ (by omega)
    (Memory.within_write _ _ _ _ (by omega) (Memory.within_write _ _ _ _ (by omega) h)))

theorem Memory.within_block (cap i : Nat) (vs : List α) (h : i + vs.length ≤ cap) :
    Memory.within cap (Memory.block i vs) = true := by
  induction vs generalizing i with
  | nil => rfl
  | cons v vs ih =>
    have hi : i < cap := by simp only [List.length_cons] at h; omega
    have := ih (i + 1) (by simp only [List.length_cons] at h; omega)
    simpa [Memory.within, Memory.block, hi] using this

theorem Memory.within_overwrite (cap : Nat) (m : Memory α) (vs : List α) (hv : vs.length ≤ cap)
    (h : Memory.within cap m = true) : Memory.within cap (Memory.overwrite m vs) = true := by
  have hb := Memory.within_block cap 0 vs (by omega)
  unfold Memory.within Memory.overwrite at *
  simp only [List.all_append, Bool.and_eq_true]
  refine ⟨hb, ?_⟩
  simp only [List.all_filter, List.all_eq_true, decide_eq_true_eq, Bool.or_eq_true, Bool.not_eq_true'] at *
  intro e he
  exact Or.inr (h e he)

/-! ## Reading a range -/

theorem Memory.readFrom_eq_some (m : Memory α) (i : Nat) (vs : List α)
    (h : ∀ q (hq : q < vs.length), Memory.read m (i + q) = some vs[q]) :
    Memory.readFrom m i vs.length = some vs := by
  induction vs generalizing i with
  | nil => rfl
  | cons v vs ih =>
    have h0 : Memory.read m i = some v := h 0 (by simp)
    have ht := ih (i + 1) (fun q hq => by
      have := h (q + 1) (by simpa using hq)
      rw [show i + 1 + q = i + (q + 1) by omega]
      simpa using this)
    simp [Memory.readFrom, h0, ht]

theorem Memory.readFrom_eq_none (m : Memory α) (i n q : Nat) (hq : q < n) (h : Memory.read m (i + q) = none) :
    Memory.readFrom m i n = none := by
  induction n generalizing i q with
  | zero => omega
  | succ n ih =>
    unfold Memory.readFrom
    cases q with
    | zero => simp [show Memory.read m i = none by simpa using h]
    | succ q =>
      have := ih (i + 1) q (by omega) (by rw [show i + 1 + q = i + (q + 1) by omega]; exact h)
      cases Memory.read m i <;> simp [this]

theorem Memory.readFrom_length (m : Memory α) (i n : Nat) (vs : List α) (h : Memory.readFrom m i n = some vs) :
    vs.length = n := by
  induction n generalizing i vs with
  | zero => simp [Memory.readFrom] at h; simp [← h]
  | succ n ih =>
    unfold Memory.readFrom at h
    split at h
    · simp at h
    · split at h
      · simp at h
      · rename_i ws hw
        simp only [Option.some.injEq] at h
        subst h
        simp [ih (i + 1) ws hw]

/-- A range read that answers has read every element of the range. -/
theorem Memory.readFrom_read (m : Memory α) (i n : Nat) (vs : List α) (h : Memory.readFrom m i n = some vs) (q : Nat)
    (hq : q < vs.length) : Memory.read m (i + q) = some vs[q] := by
  induction n generalizing i vs q with
  | zero => simp [Memory.readFrom] at h; subst h; simp at hq
  | succ n ih =>
    cases hv : Memory.read m i with
    | none => simp [Memory.readFrom, hv] at h
    | some v =>
      cases hw : Memory.readFrom m (i + 1) n with
      | none => simp [Memory.readFrom, hv, hw] at h
      | some ws =>
        have hvs : v :: ws = vs := by simpa [Memory.readFrom, hv, hw] using h
        subst hvs
        cases q with
        | zero => exact hv
        | succ q =>
          rw [show i + (q + 1) = i + 1 + q by omega]
          exact ih (i + 1) ws hw q (by simpa using hq)

end Sys2Proof.Machine
end

