-- ==== Sys2Proof/Laws/State.lean ====
section
/-! SUPPORT. One lemma per field per update of State: what each shared update leaves in every field. -/

namespace Sys2Proof.Machine

/-! ## Command start (R42) -/

@[simp] theorem State.commandStart_params (s : State) (v : Word) : (s.commandStart v).params = s.params := rfl
@[simp] theorem State.commandStart_cmd (s : State) (v : Word) : (s.commandStart v).cmd = v := rfl
@[simp] theorem State.commandStart_status (s : State) (v : Word) : (s.commandStart v).status = statusStarted := rfl
@[simp] theorem State.commandStart_arg0 (s : State) (v : Word) : (s.commandStart v).arg0 = s.arg0 := rfl
@[simp] theorem State.commandStart_arg1 (s : State) (v : Word) : (s.commandStart v).arg1 = s.arg1 := rfl
@[simp] theorem State.commandStart_arg2 (s : State) (v : Word) : (s.commandStart v).arg2 = s.arg2 := rfl
@[simp] theorem State.commandStart_res0 (s : State) (v : Word) : (s.commandStart v).res0 = s.res0 := rfl
@[simp] theorem State.commandStart_textBuf (s : State) (v : Word) : (s.commandStart v).textBuf = s.textBuf := rfl
@[simp] theorem State.commandStart_wordBuf (s : State) (v : Word) : (s.commandStart v).wordBuf = s.wordBuf := rfl
@[simp] theorem State.commandStart_pcmBuf (s : State) (v : Word) : (s.commandStart v).pcmBuf = s.pcmBuf := rfl
@[simp] theorem State.commandStart_phase (s : State) (v : Word) : (s.commandStart v).phase = .busy v s.arg0 s.arg1 s.arg2 := rfl
@[simp] theorem State.commandStart_faultMark (s : State) (v : Word) : (s.commandStart v).faultMark = s.faultMark := rfl
@[simp] theorem State.commandStart_schedule (s : State) (v : Word) : (s.commandStart v).schedule = s.schedule := rfl
@[simp] theorem State.commandStart_readData (s : State) (v : Word) : (s.commandStart v).readData = s.readData := rfl
@[simp] theorem State.commandStart_draws (s : State) (v : Word) : (s.commandStart v).draws = s.draws := rfl

/-! ## Setting the fault mark (R229) -/

@[simp] theorem State.markFault_params (s : State) (k : FaultMark) : (s.markFault k).params = s.params := rfl
@[simp] theorem State.markFault_cmd (s : State) (k : FaultMark) : (s.markFault k).cmd = s.cmd := rfl
@[simp] theorem State.markFault_status (s : State) (k : FaultMark) : (s.markFault k).status = s.status := rfl
@[simp] theorem State.markFault_arg0 (s : State) (k : FaultMark) : (s.markFault k).arg0 = s.arg0 := rfl
@[simp] theorem State.markFault_arg1 (s : State) (k : FaultMark) : (s.markFault k).arg1 = s.arg1 := rfl
@[simp] theorem State.markFault_arg2 (s : State) (k : FaultMark) : (s.markFault k).arg2 = s.arg2 := rfl
@[simp] theorem State.markFault_res0 (s : State) (k : FaultMark) : (s.markFault k).res0 = s.res0 := rfl
@[simp] theorem State.markFault_textBuf (s : State) (k : FaultMark) : (s.markFault k).textBuf = s.textBuf := rfl
@[simp] theorem State.markFault_wordBuf (s : State) (k : FaultMark) : (s.markFault k).wordBuf = s.wordBuf := rfl
@[simp] theorem State.markFault_pcmBuf (s : State) (k : FaultMark) : (s.markFault k).pcmBuf = s.pcmBuf := rfl
@[simp] theorem State.markFault_phase (s : State) (k : FaultMark) : (s.markFault k).phase = s.phase := rfl
@[simp] theorem State.markFault_faultMark (s : State) (k : FaultMark) : (s.markFault k).faultMark = some k := rfl
@[simp] theorem State.markFault_schedule (s : State) (k : FaultMark) : (s.markFault k).schedule = s.schedule := rfl
@[simp] theorem State.markFault_readData (s : State) (k : FaultMark) : (s.markFault k).readData = s.readData := rfl
@[simp] theorem State.markFault_draws (s : State) (k : FaultMark) : (s.markFault k).draws = s.draws := rfl

/-! ## Error completion (R221) -/

@[simp] theorem State.completeErr_params (s : State) (c : ErrCode) : (s.completeErr c).params = s.params := rfl
@[simp] theorem State.completeErr_cmd (s : State) (c : ErrCode) : (s.completeErr c).cmd = s.cmd := rfl
@[simp] theorem State.completeErr_status (s : State) (c : ErrCode) : (s.completeErr c).status = statusCompleted c.code := rfl
@[simp] theorem State.completeErr_arg0 (s : State) (c : ErrCode) : (s.completeErr c).arg0 = s.arg0 := rfl
@[simp] theorem State.completeErr_arg1 (s : State) (c : ErrCode) : (s.completeErr c).arg1 = s.arg1 := rfl
@[simp] theorem State.completeErr_arg2 (s : State) (c : ErrCode) : (s.completeErr c).arg2 = s.arg2 := rfl
@[simp] theorem State.completeErr_res0 (s : State) (c : ErrCode) : (s.completeErr c).res0 = s.res0 := rfl
@[simp] theorem State.completeErr_textBuf (s : State) (c : ErrCode) : (s.completeErr c).textBuf = s.textBuf := rfl
@[simp] theorem State.completeErr_wordBuf (s : State) (c : ErrCode) : (s.completeErr c).wordBuf = s.wordBuf := rfl
@[simp] theorem State.completeErr_pcmBuf (s : State) (c : ErrCode) : (s.completeErr c).pcmBuf = s.pcmBuf := rfl
@[simp] theorem State.completeErr_phase (s : State) (c : ErrCode) : (s.completeErr c).phase = .ready := rfl
@[simp] theorem State.completeErr_faultMark (s : State) (c : ErrCode) : (s.completeErr c).faultMark = s.faultMark := rfl
@[simp] theorem State.completeErr_schedule (s : State) (c : ErrCode) : (s.completeErr c).schedule = s.schedule := rfl
@[simp] theorem State.completeErr_readData (s : State) (c : ErrCode) : (s.completeErr c).readData = s.readData := rfl
@[simp] theorem State.completeErr_draws (s : State) (c : ErrCode) : (s.completeErr c).draws = s.draws := rfl

/-! ## Successful completion (R43) -/

@[simp] theorem State.completeOk_params (s : State) (r : Option Word) (w : Writes) : (s.completeOk r w).params = s.params := rfl
@[simp] theorem State.completeOk_cmd (s : State) (r : Option Word) (w : Writes) : (s.completeOk r w).cmd = s.cmd := rfl
@[simp] theorem State.completeOk_status (s : State) (r : Option Word) (w : Writes) : (s.completeOk r w).status = statusCompleted 0#4 := rfl
@[simp] theorem State.completeOk_arg0 (s : State) (r : Option Word) (w : Writes) : (s.completeOk r w).arg0 = s.arg0 := rfl
@[simp] theorem State.completeOk_arg1 (s : State) (r : Option Word) (w : Writes) : (s.completeOk r w).arg1 = s.arg1 := rfl
@[simp] theorem State.completeOk_arg2 (s : State) (r : Option Word) (w : Writes) : (s.completeOk r w).arg2 = s.arg2 := rfl
@[simp] theorem State.completeOk_res0 (s : State) (r : Option Word) (w : Writes) : (s.completeOk r w).res0 = r.getD s.res0 := rfl
@[simp] theorem State.completeOk_textBuf (s : State) (r : Option Word) (w : Writes) : (s.completeOk r w).textBuf = s.textBuf := rfl
@[simp] theorem State.completeOk_wordBuf (s : State) (r : Option Word) (w : Writes) : (s.completeOk r w).wordBuf = Memory.overwrite s.wordBuf w.words := rfl
@[simp] theorem State.completeOk_pcmBuf (s : State) (r : Option Word) (w : Writes) : (s.completeOk r w).pcmBuf = Memory.overwrite s.pcmBuf w.pcm := rfl
@[simp] theorem State.completeOk_phase (s : State) (r : Option Word) (w : Writes) : (s.completeOk r w).phase = .ready := rfl
@[simp] theorem State.completeOk_faultMark (s : State) (r : Option Word) (w : Writes) : (s.completeOk r w).faultMark = s.faultMark := rfl
@[simp] theorem State.completeOk_schedule (s : State) (r : Option Word) (w : Writes) : (s.completeOk r w).schedule = s.schedule := rfl
@[simp] theorem State.completeOk_readData (s : State) (r : Option Word) (w : Writes) : (s.completeOk r w).readData = s.readData := rfl
@[simp] theorem State.completeOk_draws (s : State) (r : Option Word) (w : Writes) : (s.completeOk r w).draws = s.draws := rfl

/-! ## A host read's return (R55) -/

@[simp] theorem State.returnRead_params (s : State) (v : Word) : (s.returnRead v).params = s.params := rfl
@[simp] theorem State.returnRead_cmd (s : State) (v : Word) : (s.returnRead v).cmd = s.cmd := rfl
@[simp] theorem State.returnRead_status (s : State) (v : Word) : (s.returnRead v).status = s.status := rfl
@[simp] theorem State.returnRead_arg0 (s : State) (v : Word) : (s.returnRead v).arg0 = s.arg0 := rfl
@[simp] theorem State.returnRead_arg1 (s : State) (v : Word) : (s.returnRead v).arg1 = s.arg1 := rfl
@[simp] theorem State.returnRead_arg2 (s : State) (v : Word) : (s.returnRead v).arg2 = s.arg2 := rfl
@[simp] theorem State.returnRead_res0 (s : State) (v : Word) : (s.returnRead v).res0 = s.res0 := rfl
@[simp] theorem State.returnRead_textBuf (s : State) (v : Word) : (s.returnRead v).textBuf = s.textBuf := rfl
@[simp] theorem State.returnRead_wordBuf (s : State) (v : Word) : (s.returnRead v).wordBuf = s.wordBuf := rfl
@[simp] theorem State.returnRead_pcmBuf (s : State) (v : Word) : (s.returnRead v).pcmBuf = s.pcmBuf := rfl
@[simp] theorem State.returnRead_phase (s : State) (v : Word) : (s.returnRead v).phase = s.phase := rfl
@[simp] theorem State.returnRead_faultMark (s : State) (v : Word) : (s.returnRead v).faultMark = s.faultMark := rfl
@[simp] theorem State.returnRead_schedule (s : State) (v : Word) : (s.returnRead v).schedule = s.schedule := rfl
@[simp] theorem State.returnRead_readData (s : State) (v : Word) : (s.returnRead v).readData = some v := rfl
@[simp] theorem State.returnRead_draws (s : State) (v : Word) : (s.returnRead v).draws = s.draws + 1 := rfl

/-! ## Reset (R250) -/

@[simp] theorem State.resetEvent_params (s : State) (rest : List Event) : (s.resetEvent rest).params = s.params := rfl
@[simp] theorem State.resetEvent_cmd (s : State) (rest : List Event) : (s.resetEvent rest).cmd = 0#32 := rfl
@[simp] theorem State.resetEvent_status (s : State) (rest : List Event) : (s.resetEvent rest).status = 0#32 := rfl
@[simp] theorem State.resetEvent_arg0 (s : State) (rest : List Event) : (s.resetEvent rest).arg0 = 0#32 := rfl
@[simp] theorem State.resetEvent_arg1 (s : State) (rest : List Event) : (s.resetEvent rest).arg1 = 0#32 := rfl
@[simp] theorem State.resetEvent_arg2 (s : State) (rest : List Event) : (s.resetEvent rest).arg2 = 0#32 := rfl
@[simp] theorem State.resetEvent_res0 (s : State) (rest : List Event) : (s.resetEvent rest).res0 = 0#32 := rfl
@[simp] theorem State.resetEvent_textBuf (s : State) (rest : List Event) : (s.resetEvent rest).textBuf = [] := rfl
@[simp] theorem State.resetEvent_wordBuf (s : State) (rest : List Event) : (s.resetEvent rest).wordBuf = [] := rfl
@[simp] theorem State.resetEvent_pcmBuf (s : State) (rest : List Event) : (s.resetEvent rest).pcmBuf = [] := rfl
@[simp] theorem State.resetEvent_phase (s : State) (rest : List Event) : (s.resetEvent rest).phase = .ready := rfl
@[simp] theorem State.resetEvent_faultMark (s : State) (rest : List Event) : (s.resetEvent rest).faultMark = none := rfl
@[simp] theorem State.resetEvent_schedule (s : State) (rest : List Event) : (s.resetEvent rest).schedule = rest := rfl
@[simp] theorem State.resetEvent_readData (s : State) (rest : List Event) : (s.resetEvent rest).readData = none := rfl
@[simp] theorem State.resetEvent_draws (s : State) (rest : List Event) : (s.resetEvent rest).draws = s.draws := rfl

end Sys2Proof.Machine
end

