-- ==== Sys2Proof/Laws/Ops.lean ====
section
/-! SUPPORT. What each shared operation can do, said once: a command's completion, a host access, one step. -/

namespace Sys2Proof.Machine

/-! ## STATUS -/

@[simp] theorem statusStarted_eq : statusStarted = 0x00000001#32 := by decide

@[simp] theorem statusCompleted_ok : statusCompleted 0#4 = 0x00000002#32 := by decide

@[simp] theorem statusCompleted_illegalCmd : statusCompleted ErrCode.illegalCmd.code = 0x00000106#32 := by decide

@[simp] theorem statusCompleted_argRange : statusCompleted ErrCode.argRange.code = 0x00000206#32 := by decide

@[simp] theorem statusCompleted_rate : statusCompleted ErrCode.rate.code = 0x00000306#32 := by decide

@[simp] theorem statusCompleted_bufOverflow : statusCompleted ErrCode.bufOverflow.code = 0x00000406#32 := by decide

@[simp] theorem statusCompleted_arithOverflow : statusCompleted ErrCode.arithOverflow.code = 0x00000506#32 := by decide

/-! ## Completion -/

/-- Completion where it is enabled (R43). -/
theorem complete_busy (f : Inputs → Result) {s : State} {op a0 a1 a2 : Word} (hm : s.faultMark = none)
    (hp : s.phase = .busy op a0 a1 a2) : complete f s = .next (s.applyResult (f (s.inputs a0 a1 a2))) := by
  simp [complete, hm, hp]

/-- A completion that answers a next state was enabled, and its next state is the command's outcome applied (R43). -/
theorem complete_cases {f : Inputs → Result} {s t : State} (h : complete f s = .next t) :
    s.faultMark = none ∧ ∃ op a0 a1 a2, s.phase = .busy op a0 a1 a2 ∧ t = s.applyResult (f (s.inputs a0 a1 a2)) := by
  unfold complete at h
  split at h
  · cases h
  · split at h
    · cases h
    · rename_i hm _ op a0 a1 a2 hp
      cases h
      exact ⟨hm, op, a0, a1, a2, hp, rfl⟩

/-- The three outcomes of R43. -/
theorem applyResult_cases (s : State) (r : Result) :
    (∃ res w, r = .ok res w ∧ s.applyResult r = s.completeOk res w) ∨
    (∃ c, r = .err c ∧ s.applyResult r = s.completeErr c) ∨
    (r = .uninitRead ∧ s.applyResult r = s.markFault .uninitRead) := by
  cases r with
  | ok res w => exact .inl ⟨res, w, rfl, rfl⟩
  | err c => exact .inr (.inl ⟨c, rfl, rfl⟩)
  | uninitRead => exact .inr (.inr ⟨rfl, rfl⟩)

/-- Every meaning is the completion of its command's evaluation (R43, R44). -/
theorem exec_eq_complete (i : Instr) (s : State) : exec i s = complete (evalOf i) s := by
  cases i <;> rfl

/-! ## The agents -/

/-- What a host read can do (R55, R58, R239). -/
theorem hostRead_cases (off : Offset) (size : Nat) (s : State) :
    (accessTarget s.params off size = none ∧ hostRead off size s = s.markFault .busFault) ∨
    (∃ t, accessTarget s.params off size = some t ∧ s.isBusy = true ∧ t ≠ .reg .status ∧
      hostRead off size s = s.markFault .hostProtocol) ∨
    (∃ t, accessTarget s.params off size = some t ∧ (s.isBusy = false ∨ t = .reg .status) ∧
      hostRead off size s = s.returnRead (s.targetValue t)) := by
  unfold hostRead
  cases ht : accessTarget s.params off size with
  | none => exact .inl ⟨rfl, rfl⟩
  | some t =>
    by_cases hb : s.isBusy = true ∧ t ≠ .reg .status
    · exact .inr (.inl ⟨t, rfl, hb.1, hb.2, by simp [hb]⟩)
    · refine .inr (.inr ⟨t, rfl, ?_, by simp only [if_neg hb]⟩)
      by_cases ht' : t = .reg .status
      · exact .inr ht'
      · exact .inl (by simpa [ht'] using hb)

/-- What a host write can do (R54, R58, R239). -/
theorem hostWrite_cases (off : Offset) (size : Nat) (v : Word) (s : State) :
    (writeTargetOf s.params off size = none ∧ hostWrite off size v s = s.markFault .busFault) ∨
    (∃ t, writeTargetOf s.params off size = some t ∧ s.isBusy = true ∧
      hostWrite off size v s = s.markFault .hostProtocol) ∨
    (∃ t, writeTargetOf s.params off size = some t ∧ s.isBusy = false ∧ hostWrite off size v s = s.writeTarget v t) := by
  unfold hostWrite
  cases ht : writeTargetOf s.params off size with
  | none => exact .inl ⟨rfl, rfl⟩
  | some t =>
    cases hb : s.isBusy with
    | true => exact .inr (.inl ⟨t, rfl, rfl, rfl⟩)
    | false => exact .inr (.inr ⟨t, rfl, rfl, rfl⟩)

/-- What the Core's turn can do: pass, or complete the outstanding command (R43, R82, R83). -/
theorem coreTurn_cases (s : State) :
    (s.phase = .ready ∧ coreTurn s = .next s) ∨
    (∃ op a0 a1 a2, s.phase = .busy op a0 a1 a2 ∧
      ((∃ i, decode op = .instr i ∧ coreTurn s = exec i s) ∨
       (∃ why, decode op = .illegal why ∧ coreTurn s = completeIllegal s))) := by
  unfold coreTurn
  cases hp : s.phase with
  | ready => exact .inl ⟨rfl, rfl⟩
  | busy op a0 a1 a2 =>
    refine .inr ⟨op, a0, a1, a2, rfl, ?_⟩
    cases hd : decode op with
    | instr i => exact .inl ⟨i, rfl, by simp only [hd]⟩
    | illegal why => exact .inr ⟨why, rfl, by simp only [hd]⟩

/-- What a Core's turn that answers a next state did, in a state with no fault mark: nothing in phase Ready, or one of the
outcomes of R43. -/
theorem coreTurn_next {s t : State} (hm : s.faultMark = none) (h : coreTurn s = .next t) :
    (s.phase = .ready ∧ t = s) ∨
    (∃ op a0 a1 a2, s.phase = .busy op a0 a1 a2 ∧
      ((∃ i, decode op = .instr i ∧ t = s.applyResult (evalOf i (s.inputs a0 a1 a2))) ∨
       (∃ why, decode op = .illegal why ∧ t = s.completeErr .illegalCmd))) := by
  rcases coreTurn_cases s with ⟨hp, he⟩ | ⟨op, a0, a1, a2, hp, ⟨i, hi, he⟩ | ⟨why, hw, he⟩⟩
  · left
    rw [he] at h
    cases h
    exact ⟨hp, rfl⟩
  · right
    rw [he, exec_eq_complete, complete_busy _ hm hp] at h
    cases h
    exact ⟨op, a0, a1, a2, hp, .inl ⟨i, hi, rfl⟩⟩
  · right
    rw [he, completeIllegal, complete_busy _ hm hp] at h
    cases h
    exact ⟨op, a0, a1, a2, hp, .inr ⟨why, hw, rfl⟩⟩

/-- Everything one step can do when it answers a next state: reset; or, with no fault mark, a Core's turn (by the schedule, or
because the schedule is empty), a host read or a host write. -/
theorem step_cases {s t : State} (h : step s = .next t) :
    (∃ rest, s.schedule = .reset :: rest ∧ t = s.resetEvent rest) ∨
    (s.faultMark = none ∧
      ((s.schedule = [] ∧ coreTurn s = .next t) ∨
       (∃ rest, s.schedule = .core :: rest ∧ coreTurn { s with schedule := rest } = .next t) ∨
       (∃ off size rest, s.schedule = .read off size :: rest ∧ t = hostRead off size { s with schedule := rest }) ∨
       (∃ off size v rest, s.schedule = .write off size v :: rest ∧
         t = hostWrite off size v { s with schedule := rest }))) := by
  unfold step advance at h
  split at h
  · rename_i rest hs
    cases h
    exact .inl ⟨rest, hs, rfl⟩
  · cases h
  · exact .inr ⟨‹_›, .inl ⟨‹_›, h⟩⟩
  · exact .inr ⟨‹_›, .inr (.inl ⟨_, ‹_›, h⟩)⟩
  · cases h
    exact .inr ⟨‹_›, .inr (.inr (.inl ⟨_, _, _, ‹_›, rfl⟩))⟩
  · cases h
    exact .inr ⟨‹_›, .inr (.inr (.inr ⟨_, _, _, _, ‹_›, rfl⟩))⟩

end Sys2Proof.Machine
end

