-- ==== Sys2Proof/Laws/Commands.lean ====
section
/-! SUPPORT. What a command's evaluation can answer, and what a meaning that answers a next state did. -/

namespace Sys2Proof.Machine

/-- The shape of every command's outcome (R44): which element writes it may carry, which of them write RES0 (R31, R61), and
that ILLEGAL_CMD is no command's own error (R222). -/
theorem evalOf_shape (i : Instr) (x : Inputs) :
    (∃ r w, evalOf i x = .ok r w ∧ (i ≠ .encascii → i ≠ .enctx → w.words = []) ∧ (i ≠ .pcmenc → w.pcm = []) ∧
      (i = .nop → r = none) ∧ (i ≠ .nop → ∃ v, r = some v)) ∨
    (∃ c, c ≠ .illegalCmd ∧ evalOf i x = .err c) ∨ evalOf i x = .uninitRead := by
  cases i <;>
    simp only [evalOf, evalNop, evalCrc, evalParity, evalEnccw, evalEncascii, evalAddroff, evalEnctx, evalTxlen,
      evalPcmlen, evalPcmenc] <;>
    repeat' split
  all_goals first
    | exact .inl ⟨_, _, rfl, by simp [Writes.none], by simp [Writes.none], by simp, by simp⟩
    | exact .inr (.inl ⟨_, by simp, rfl⟩)
    | exact .inr (.inr rfl)

/-- A meaning that answers a next state was enabled, and applied its command's outcome (R43). -/
theorem exec_next {i : Instr} {s t : State} (h : exec i s = .next t) :
    s.faultMark = none ∧
      ∃ op a0 a1 a2, s.phase = .busy op a0 a1 a2 ∧ t = s.applyResult (evalOf i (s.inputs a0 a1 a2)) := by
  rw [exec_eq_complete] at h
  exact complete_cases h

/-! ## One step, by whose turn it is -/

theorem step_core {s : State} {rest : List Event} (hm : s.faultMark = none) (h : s.schedule = .core :: rest) :
    step s = coreTurn { s with schedule := rest } := by
  simp [step, advance, hm, h]

theorem step_empty {s : State} (hm : s.faultMark = none) (h : s.schedule = []) : step s = coreTurn s := by
  simp [step, advance, hm, h]

theorem step_read {s : State} {off : Offset} {size : Nat} {rest : List Event} (hm : s.faultMark = none)
    (h : s.schedule = .read off size :: rest) : step s = .next (hostRead off size { s with schedule := rest }) := by
  simp [step, advance, hm, h]

theorem step_write {s : State} {off : Offset} {size : Nat} {v : Word} {rest : List Event} (hm : s.faultMark = none)
    (h : s.schedule = .write off size v :: rest) :
    step s = .next (hostWrite off size v { s with schedule := rest }) := by
  simp [step, advance, hm, h]

theorem step_reset {s : State} {rest : List Event} (h : s.schedule = .reset :: rest) :
    step s = .next (s.resetEvent rest) := by
  simp [step, advance, h]

end Sys2Proof.Machine
end

