-- ==== Sys2Proof/Laws/Decode.lean ====
section
/-! SUPPORT. A command word as its two fields (R22, R80). -/

namespace Sys2Proof

/-- A command word's number is RSVD times 16 plus OPCODE. -/
theorem toNat_eq_fields (v : Word) : v.toNat = (rsvdField v).toNat * 16 + (opcodeField v).toNat := by
  have := v.isLt
  simp [rsvdField, opcodeField, BitVec.extractLsb'_toNat, Nat.shiftRight_eq_div_pow]
  omega

/-- The opcode map's two readings agree (R81). -/
theorem ofOpcode_eq_some (n : BitVec 4) (i : Instr) : ofOpcode n = some i ↔ n = opcode i := by
  cases i <;> revert n <;> decide

end Sys2Proof
end

