-- ==== Sys2Proof/Laws/HostPort.lean ====
section
/-! SUPPORT. The host window's map inverted: what an access that reaches a target looks like, and what a write to a target
changes. -/

namespace Sys2Proof.Machine

/-- The register block, offset by offset (R21). -/
theorem regAt_cases (o : Nat) :
    (∃ r, o = regOffset r ∧ regAt o = some r) ∨ (regAt o = none ∧ ∀ r, o ≠ regOffset r) := by
  unfold regAt
  split
  · exact .inl ⟨.cmd, rfl, rfl⟩
  · exact .inl ⟨.status, rfl, rfl⟩
  · exact .inl ⟨.arg0, rfl, rfl⟩
  · exact .inl ⟨.arg1, rfl, rfl⟩
  · exact .inl ⟨.arg2, rfl, rfl⟩
  · exact .inl ⟨.res0, rfl, rfl⟩
  · refine .inr ⟨rfl, fun r => ?_⟩
    cases r <;> assumption

/-- An aligned offset's target determines the offset (R51). -/
theorem mapOffset_some {p : Config.Params} {o : Nat} {t : Target} (h : mapOffset p o = some t) :
    (∃ r, t = .reg r ∧ o = regOffset r) ∨
    (∃ i, t = .text i ∧ o = textBase + i ∧ i < 0x10000 ∧ i < p.textMax) ∨
    (∃ k, t = .word k ∧ o = wordBase + 4 * k + o % 4 ∧ k < 0x4000 ∧ k < p.wordMax) ∨
    (∃ i, t = .pcm i ∧ o = pcmBase + i ∧ i < p.pcmMax) := by
  unfold mapOffset at h
  have hb : textBase = 65536 ∧ wordBase = 131072 ∧ wordEnd = 196608 ∧ pcmBase = 1048576 := ⟨rfl, rfl, rfl, rfl⟩
  split at h
  · rcases regAt_cases o with ⟨r, ho, hr⟩ | ⟨hr, -⟩
    · rw [hr] at h
      cases h
      exact .inl ⟨r, rfl, ho⟩
    · rw [hr] at h
      cases h
  · split at h
    · split at h
      · cases h
        exact .inr (.inl ⟨_, rfl, by omega, by omega, ‹_›⟩)
      · cases h
    · split at h
      · split at h
        · cases h
          exact .inr (.inr (.inl ⟨_, rfl, by omega, by omega, ‹_›⟩))
        · cases h
      · split at h
        · cases h
        · split at h
          · cases h
            exact .inr (.inr (.inr ⟨_, rfl, by omega, ‹_›⟩))
          · cases h

/-- An access that reaches a target has size 4 and an aligned offset that the map takes there (R53, R58). -/
theorem accessTarget_some {p : Config.Params} {off : Offset} {size : Nat} {t : Target}
    (h : accessTarget p off size = some t) : size = 4 ∧ off.toNat % 4 = 0 ∧ mapOffset p off.toNat = some t := by
  unfold accessTarget at h
  split at h
  · exact ⟨‹_ ∧ _›.1, ‹_ ∧ _›.2, h⟩
  · cases h

/-- A host write's target is an access's target that may be written (R58). -/
theorem writeTargetOf_some {p : Config.Params} {off : Offset} {size : Nat} {t : Target}
    (h : writeTargetOf p off size = some t) : accessTarget p off size = some t ∧ t.writable = true := by
  unfold writeTargetOf at h
  split at h
  · cases h
  · split at h
    · cases h
      exact ⟨‹_›, ‹_›⟩
    · cases h

/-- What a host write to a target can never change (R54). -/
theorem writeTarget_frame (s : State) (v : Word) (t : Target) :
    (s.writeTarget v t).params = s.params ∧ (s.writeTarget v t).res0 = s.res0 ∧
    (s.writeTarget v t).faultMark = s.faultMark ∧ (s.writeTarget v t).schedule = s.schedule ∧
    (s.writeTarget v t).readData = s.readData ∧ (s.writeTarget v t).draws = s.draws := by
  cases t with
  | reg r => cases r <;> exact ⟨rfl, rfl, rfl, rfl, rfl, rfl⟩
  | text i => exact ⟨rfl, rfl, rfl, rfl, rfl, rfl⟩
  | word k => exact ⟨rfl, rfl, rfl, rfl, rfl, rfl⟩
  | pcm i => exact ⟨rfl, rfl, rfl, rfl, rfl, rfl⟩

end Sys2Proof.Machine
end

