-- ==== Sys2Proof/Laws/PerInstr.lean ====
section
/-! SUPPORT. Per-instruction facts about the encoding: a command's word is its opcode number alone (R80, R81). -/

namespace Sys2Proof.Laws.OpcodeField

/-- The command's word has RSVD 0 and its own number in OPCODE, and the number names the command again (R80, R81). -/
def Statement (i : Instr) : Prop :=
  rsvdField (encode i) = 0#28 ∧ opcodeField (encode i) = opcode i ∧ ofOpcode (opcode i) = some i

theorem nop : Statement .nop := ⟨rfl, rfl, rfl⟩
theorem crc : Statement .crc := ⟨rfl, rfl, rfl⟩
theorem parity : Statement .parity := ⟨rfl, rfl, rfl⟩
theorem enccw : Statement .enccw := ⟨rfl, rfl, rfl⟩
theorem encascii : Statement .encascii := ⟨rfl, rfl, rfl⟩
theorem addroff : Statement .addroff := ⟨rfl, rfl, rfl⟩
theorem enctx : Statement .enctx := ⟨rfl, rfl, rfl⟩
theorem txlen : Statement .txlen := ⟨rfl, rfl, rfl⟩
theorem pcmlen : Statement .pcmlen := ⟨rfl, rfl, rfl⟩
theorem pcmenc : Statement .pcmenc := ⟨rfl, rfl, rfl⟩

end Sys2Proof.Laws.OpcodeField
end

