-- ==== Sys2Proof/Machine/Script.lean ====
section
/-! DEFINITION. The host-script notation of R86 and R88 as expansions into schedule entries. It is notation only, no part of
the hardware (D26). -/

namespace Sys2Proof.Machine.Script

/-- The offset a script target names (R86): a register, `TEXT[k]`, `WORD[k]` or `PCM[k]`. -/
inductive Place where
  | reg (r : Reg)
  | text (k : Nat)
  | word (k : Nat)
  | pcm (k : Nat)
deriving DecidableEq, Repr

/-- `off(<target>)` (R86). -/
def Place.offset : Place → Offset
  | .reg r => BitVec.ofNat 21 (regOffset r)
  | .text k => BitVec.ofNat 21 (textBase + 4 * k)
  | .word k => BitVec.ofNat 21 (wordBase + 4 * k)
  | .pcm k => BitVec.ofNat 21 (pcmBase + 4 * k)

/-- `W <target>, <value>` (R86). -/
def writeTo (t : Place) (v : Word) : Event := .write t.offset 4 v

/-- `R <target>` (R86). -/
def readOf (t : Place) : Event := .read t.offset 4

/-- `OP <mn>`: write the command's opcode to CMD (R88). -/
def opEvent (i : Instr) : Event := writeTo (.reg .cmd) (encode i)

/-- `POLL`, the runs of it that end after `busyReads` reads of STATUS with BUSY = 1: then the core completes, and the last
read sees BUSY = 0 (R88, R262). -/
def pollEvents (busyReads : Nat) : List Event :=
  List.replicate busyReads (readOf (.reg .status)) ++ [.core, readOf (.reg .status)]

/-- The writes of a RUN's operands, those that are given, in the order ARG0, ARG1, ARG2 (R88). -/
def argEvents (args : List Word) : List Event :=
  (List.zip [Reg.arg0, Reg.arg1, Reg.arg2] args).map (fun e => writeTo (.reg e.1) e.2)

/-- `RUN <mn> [a0 [, a1 [, a2]]]` (R88). -/
def runEvents (i : Instr) (args : List Word) (busyReads : Nat) : List Event :=
  argEvents args ++ opEvent i :: pollEvents busyReads

/-- Word `k` of `TEXT "<s>"`: bytes `4k … 4k+3`, 0 past the end of the string (R88). -/
def textWord (str : List Byte) (k : Nat) : Word :=
  (str.getD (4 * k + 3) 0#8 ++ str.getD (4 * k + 2) 0#8) ++ (str.getD (4 * k + 1) 0#8 ++ str.getD (4 * k) 0#8)

/-- `TEXT "<s>"` (R88). -/
def textEvents (str : List Byte) : List Event :=
  (List.range (ceilDiv str.length 4)).map (fun k => writeTo (.text k) (textWord str k))

/-- The check of `EXPECT <target> == <value>`, in the state its read leaves (R88). -/
def expects (s : State) (v : Word) : Bool := s.readData == some v

/-- A command's mnemonic (R81). -/
def mnemonic : Instr → String
  | .nop => "NOP"
  | .crc => "CRC"
  | .parity => "PARITY"
  | .enccw => "ENCCW"
  | .encascii => "ENCASCII"
  | .addroff => "ADDROFF"
  | .enctx => "ENCTX"
  | .txlen => "TXLEN"
  | .pcmlen => "PCMLEN"
  | .pcmenc => "PCMENC"

/-- The command a script's mnemonic names, in any case (R86). -/
def ofMnemonic (m : String) : Option Instr :=
  [Instr.nop, .crc, .parity, .enccw, .encascii, .addroff, .enctx, .txlen, .pcmlen, .pcmenc].find?
    (fun i => (mnemonic i).toList == m.toList.map Char.toUpper)

end Sys2Proof.Machine.Script
end

