-- ==== Sys2Proof/Tests/Slice0.lean ====
section
/-! SUPPORT. The model's own tests: the well-formedness smoke test, decoding from words written out, at most two tests a
command with results from 95_test_vectors.md, host accesses, and a witness for the hypotheses of each statement. -/

namespace Sys2Proof.Tests

open Sys2Proof.Machine

/-! ## Well-formedness: each check refuses a term that breaks it (R7) -/

theorem test_referenceParams_wellFormed : Config.referenceParams.wellFormed = true := by decide

theorem test_coreBase_unaligned_refused :
    Config.Params.wellFormed { Config.referenceParams with coreBase := 0x100000 } = false := by decide

theorem test_textMax_not_multiple_refused :
    Config.Params.wellFormed { Config.referenceParams with textMax := 255 } = false := by decide

theorem test_textMax_zero_refused :
    Config.Params.wellFormed { Config.referenceParams with textMax := 0 } = false := by decide

theorem test_textMax_too_large_refused :
    Config.Params.wellFormed { Config.referenceParams with textMax := 65540 } = false := by decide

theorem test_wordMax_too_small_refused :
    Config.Params.wellFormed { Config.referenceParams with wordMax := 34 } = false := by decide

theorem test_wordMax_too_large_refused :
    Config.Params.wellFormed { Config.referenceParams with wordMax := 16385 } = false := by decide

theorem test_pcmMax_not_multiple_refused :
    Config.Params.wellFormed { Config.referenceParams with pcmMax := 6 } = false := by decide

theorem test_pcmMax_zero_refused :
    Config.Params.wellFormed { Config.referenceParams with pcmMax := 0 } = false := by decide

theorem test_pcmMax_too_large_refused :
    Config.Params.wellFormed { Config.referenceParams with pcmMax := 1048580 } = false := by decide

/-! ## Decoding: every command's word written out from R80 and R81 (RSVD 31:4 zero, OPCODE 3:0) -/

theorem test_decode_nop : decode 0b00000000000000000000000000000000#32 = .instr .nop := by decide
theorem test_decode_crc : decode 0b00000000000000000000000000000001#32 = .instr .crc := by decide
theorem test_decode_parity : decode 0b00000000000000000000000000000010#32 = .instr .parity := by decide
theorem test_decode_enccw : decode 0b00000000000000000000000000000011#32 = .instr .enccw := by decide
theorem test_decode_encascii : decode 0b00000000000000000000000000000100#32 = .instr .encascii := by decide
theorem test_decode_addroff : decode 0b00000000000000000000000000000101#32 = .instr .addroff := by decide
theorem test_decode_enctx : decode 0b00000000000000000000000000000110#32 = .instr .enctx := by decide
theorem test_decode_txlen : decode 0b00000000000000000000000000000111#32 = .instr .txlen := by decide
theorem test_decode_pcmlen : decode 0b00000000000000000000000000001000#32 = .instr .pcmlen := by decide
theorem test_decode_pcmenc : decode 0b00000000000000000000000000001001#32 = .instr .pcmenc := by decide

/-- The illegal words of 95_test_vectors.md §2.3, each rejected by its name. -/
theorem test_decode_illegal :
    decode 0x0000000A#32 = .illegal .reservedOpcode ∧ decode 0x0000000F#32 = .illegal .reservedOpcode ∧
    decode 0x00000010#32 = .illegal .rsvdNonzero ∧ decode 0x00000011#32 = .illegal .rsvdNonzero ∧
    decode 0x80000001#32 = .illegal .rsvdNonzero := by decide

/-! ## Small states -/

/-- The reset state with a command outstanding, as R42 leaves it. -/
def started (op a0 a1 a2 : Word) : State :=
  { State.reset with
    cmd := op, arg0 := a0, arg1 := a1, arg2 := a2, status := 0x00000001#32, phase := .busy op a0 a1 a2 }

/-- The same with the text "A" in TEXT_BUF[0] and one word in WORD_BUF[0]. -/
def loaded (op a0 a1 a2 w : Word) : State :=
  { started op a0 a1 a2 with textBuf := [(0, 0x41#8)], wordBuf := [(0, w)] }

/-- The reset state with a schedule. -/
def scheduled (es : List Event) : State := { State.reset with schedule := es }

/-- STATUS and RES0 after an outcome, if it is a next state. -/
def statusAndResult : Host.Outcome State Fault Refusal → Option (Word × Word)
  | .next t => some (t.status, t.res0)
  | .fault _ => none
  | .refused _ => none

/-- WORD_BUF[k] after an outcome. -/
def wordAfter (k : Nat) : Host.Outcome State Fault Refusal → Option Word
  | .next t => Memory.read t.wordBuf k
  | .fault _ => none
  | .refused _ => none

/-- PCM_BUF[k] after an outcome. -/
def pcmAfter (k : Nat) : Host.Outcome State Fault Refusal → Option Byte
  | .next t => Memory.read t.pcmBuf k
  | .fault _ => none
  | .refused _ => none

/-- The fault mark after an outcome. -/
def markAfter : Host.Outcome State Fault Refusal → Option FaultMark
  | .next t => t.faultMark
  | .fault _ => none
  | .refused _ => none

/-- The value a host read returned. -/
def readAfter : Host.Outcome State Fault Refusal → Option Word
  | .next t => t.readData
  | .fault _ => none
  | .refused _ => none

/-! ## Commands (expected results: 95_test_vectors.md §2) -/

theorem test_nop : statusAndResult (exec .nop (started 0#32 0x200000#32 0#32 0#32)) = some (2#32, 0#32) := by decide

theorem test_crc : statusAndResult (exec .crc (started 1#32 0x155555#32 0#32 0#32)) = some (2#32, 0x38D#32) := by
  decide +kernel

theorem test_crc_out_of_range :
    statusAndResult (exec .crc (started 1#32 0x200000#32 0#32 0#32)) = some (0x206#32, 0#32) := by decide

theorem test_parity :
    statusAndResult (exec .parity (started 2#32 0x12345678#32 0#32 0#32)) = some (2#32, 1#32) := by decide

theorem test_parity_of_a_codeword :
    statusAndResult (exec .parity (started 2#32 0x7CD215D8#32 0#32 0#32)) = some (2#32, 0#32) := by decide

theorem test_enccw :
    statusAndResult (exec .enccw (started 3#32 0x0ABCDE#32 0#32 0#32)) = some (2#32, 0x55E6F6DA#32) := by decide +kernel

theorem test_enccw_sync :
    statusAndResult (exec .enccw (started 3#32 0x0F9A42#32 0#32 0#32)) = some (2#32, 0x7CD215D8#32) := by decide +kernel

/-- P5: a message word that closes a batch is followed by SYNC. -/
theorem test_encascii_closes_a_batch :
    wordAfter 0 (exec .encascii (loaded 4#32 15#32 1#32 0#32 0#32)) = some 0xC100057F#32 ∧
    wordAfter 1 (exec .encascii (loaded 4#32 15#32 1#32 0#32 0#32)) = some 0x7CD215D8#32 ∧
    statusAndResult (exec .encascii (loaded 4#32 15#32 1#32 0#32 0#32)) = some (2#32, 2#32) := by decide +kernel

/-- P7a: an unwritten byte faults, but an operand error comes first (R227). -/
theorem test_encascii_unwritten_byte :
    markAfter (exec .encascii (started 4#32 0#32 1#32 0#32)) = some .uninitRead ∧
    statusAndResult (exec .encascii (started 4#32 16#32 1#32 0#32)) = some (0x206#32, 0#32) := by decide

theorem test_addroff :
    statusAndResult (exec .addroff (started 5#32 0x12D687#32 0#32 0#32)) = some (2#32, 14#32) := by decide

/-- P2: address 0, text "A". -/
theorem test_enctx :
    statusAndResult (exec .enctx (loaded 6#32 0#32 1#32 0#32 0#32)) = some (2#32, 35#32) ∧
    wordAfter 18 (exec .enctx (loaded 6#32 0#32 1#32 0#32 0#32)) = some 0x7CD215D8#32 ∧
    wordAfter 19 (exec .enctx (loaded 6#32 0#32 1#32 0#32 0#32)) = some 0x00001DA5#32 ∧
    wordAfter 20 (exec .enctx (loaded 6#32 0#32 1#32 0#32 0#32)) = some 0xC100057F#32 := by decide +kernel

theorem test_enctx_does_not_fit :
    statusAndResult (exec .enctx (started 6#32 0#32 86#32 0#32)) = some (0x406#32, 0#32) := by decide

theorem test_txlen :
    statusAndResult (exec .txlen (started 7#32 7#32 0xFFFFFFFF#32 0#32)) = some (2#32, 1597191005#32) := by decide

theorem test_txlen_crosses_a_batch :
    statusAndResult (exec .txlen (started 7#32 0#32 41#32 0#32)) = some (2#32, 52#32) := by decide

theorem test_pcmlen :
    statusAndResult (exec .pcmlen (started 8#32 8000#32 1200#32 1#32)) = some (2#32, 426#32) := by decide

theorem test_pcmlen_overflow :
    statusAndResult (exec .pcmlen (started 8#32 22050#32 512#32 1558265#32)) = some (0x506#32, 0#32) := by decide

/-- 38400 Hz at 38400 baud: one sample a bit (95 §2.6). -/
theorem test_pcmenc :
    statusAndResult (exec .pcmenc (loaded 9#32 38400#32 38400#32 1#32 0x80000001#32)) = some (2#32, 64#32) ∧
    pcmAfter 0 (exec .pcmenc (loaded 9#32 38400#32 38400#32 1#32 0x80000001#32)) = some 0x01#8 ∧
    pcmAfter 3 (exec .pcmenc (loaded 9#32 38400#32 38400#32 1#32 0x80000001#32)) = some 0x3F#8 ∧
    pcmAfter 63 (exec .pcmenc (loaded 9#32 38400#32 38400#32 1#32 0x80000001#32)) = some 0xC0#8 := by decide +kernel

theorem test_pcmenc_reads_every_word :
    markAfter (exec .pcmenc (started 9#32 1#32 38400#32 1#32)) = some .uninitRead ∧
    statusAndResult (exec .pcmenc (started 9#32 22050#32 1000#32 1#32)) = some (0x306#32, 0#32) := by decide

/-! ## Host accesses and agents (95_test_vectors.md §2.7, P4, P7) -/

theorem test_misaligned_read_is_a_bus_fault :
    markAfter (step (scheduled [.read 0x000002#21 4])) = some .busFault := by decide

theorem test_status_write_is_a_bus_fault :
    markAfter (step (scheduled [.write 0x000004#21 4 0#32])) = some .busFault := by decide

theorem test_read_past_text_is_a_bus_fault :
    markAfter (step (scheduled [.read 0x010100#21 4])) = some .busFault := by decide

theorem test_arg_write_while_busy_is_a_protocol_fault :
    markAfter (step { started 1#32 0#32 0#32 0#32 with schedule := [.write 0x000008#21 4 5#32] }) = some .hostProtocol := by
  decide

theorem test_status_read_while_busy :
    readAfter (step { started 1#32 0#32 0#32 0#32 with schedule := [.read 0x000004#21 4] }) = some 1#32 := by decide

/-- P4: RSVD ≠ 0 completes with ILLEGAL_CMD. -/
theorem test_illegal_word_completes :
    statusAndResult (step (started 0x10#32 0#32 0#32 0#32)) = some (0x106#32, 0#32) := by decide

/-- A 32-bit read of PCM holds sample 2m in bits 15:0 (R57; 95 §2.6, PCM[43]). -/
theorem test_pcm_read_is_little_endian :
    readAfter (step { scheduled [.read 0x100000#21 4] with
      pcmBuf := [(0, 0xFF#8), (1, 0x3F#8), (2, 0x01#8), (3, 0xC0#8)] }) = some 0xC0013FFF#32 := by decide

/-- A placed command is run by the very next step. -/
theorem test_withFetchWord_runs_next :
    statusAndResult (step (State.reset.withFetchWord 32 0x00000002)) = some (2#32, 0#32) := by decide

/-- The expansion of `TEXT "A"` (P2, step 1), and of a RUN (P1, steps 1 to 3). -/
theorem test_script_expansions :
    Script.textEvents [0x41#8] = [.write 0x010000#21 4 0x00000041#32] ∧
    Script.runEvents .crc [3#32] 1 =
      [.write 0x000008#21 4 3#32, .write 0x000000#21 4 1#32, .read 0x000004#21 4, .core, .read 0x000004#21 4] := by
  decide

theorem test_script_targets :
    (Script.Place.word 34).offset = 0x020088#21 ∧ (Script.Place.pcm 12403).offset = 0x10C1CC#21 := by decide

/-! ## Witnesses: the hypotheses of each statement are met, clause by clause -/

theorem witness_IllegalCommandWordCompletesWithIllegalCmd :
    Outstanding { started 0x10#32 0#32 0#32 0#32 with schedule := [.core] } 0x10#32 0#32 0#32 0#32 ∧
    (0x10#32).extractLsb' 4 28 ≠ 0#28 ∧
    Outstanding { started 0xA#32 0#32 0#32 0#32 with schedule := [.core] } 0xA#32 0#32 0#32 0#32 ∧
    0xA ≤ ((0xA#32).extractLsb' 0 4).toNat := ⟨⟨rfl, rfl⟩, by decide, ⟨rfl, rfl⟩, by decide⟩

theorem witness_StepRunsTheDecodedCommand :
    Outstanding { started 9#32 1#32 1#32 0#32 with schedule := [.core] } 9#32 1#32 1#32 0#32 ∧
    decode 9#32 = .instr .pcmenc ∧
    Outstanding (started 0#32 0#32 0#32 0#32) 0#32 0#32 0#32 0#32 ∧ (started 0#32 0#32 0#32 0#32).schedule = [] :=
  ⟨⟨rfl, rfl⟩, by decide, ⟨rfl, rfl⟩, rfl⟩

theorem witness_DecodeOfEncodeIsTheCommand : Instr.wellFormed .pcmenc = true := rfl

theorem witness_NopChangesOnlyStatus : Outstanding (started 0#32 1#32 2#32 3#32) 0#32 1#32 2#32 3#32 := ⟨rfl, rfl⟩

theorem witness_CrcWritesThePolynomialRemainder :
    Outstanding (started 1#32 0x1FFFFF#32 0#32 0#32) 1#32 0x1FFFFF#32 0#32 0#32 ∧ (0x1FFFFF#32).toNat ≤ 0x1FFFFF ∧
    Outstanding (started 1#32 0x200000#32 0#32 0#32) 1#32 0x200000#32 0#32 0#32 ∧ 0x1FFFFF < (0x200000#32).toNat :=
  ⟨⟨rfl, rfl⟩, by decide, ⟨rfl, rfl⟩, by decide⟩

theorem witness_ParityWritesOneForAnOddPopulation :
    Outstanding (started 2#32 0x80000000#32 0#32 0#32) 2#32 0x80000000#32 0#32 0#32 := ⟨rfl, rfl⟩

theorem witness_EnccwWritesPayloadCrcParity :
    Outstanding (started 3#32 0x1FFFFF#32 0#32 0#32) 3#32 0x1FFFFF#32 0#32 0#32 ∧ (0x1FFFFF#32).toNat ≤ 0x1FFFFF ∧
    Outstanding (started 3#32 0x200000#32 0#32 0#32) 3#32 0x200000#32 0#32 0#32 ∧ 0x1FFFFF < (0x200000#32).toNat :=
  ⟨⟨rfl, rfl⟩, by decide, ⟨rfl, rfl⟩, by decide⟩

/-- Offset 16; 257 characters; 175 characters from offset 0, 65 words; one unwritten character; and offset 15 with "A". -/
theorem witness_EncasciiPacksTextIntoWords :
    15 < (16#32).toNat ∧
    ((started 4#32 0#32 257#32 0#32).params.textMax < (257#32).toNat ∧ (0#32).toNat ≤ 15) ∧
    ((started 4#32 0#32 175#32 0#32).params.wordMax < Claims.messageCount 175 + (0 + Claims.messageCount 175) / 16) ∧
    Memory.read (started 4#32 0#32 1#32 0#32).textBuf 0 = none ∧
    (Outstanding (loaded 4#32 15#32 1#32 0#32 0#32) 4#32 15#32 1#32 0#32 ∧ [0x41#8].length = (1#32).toNat ∧
      (15#32).toNat ≤ 15 ∧ Claims.messageCount 1 + (15 + Claims.messageCount 1) / 16 = 2 ∧
      ∀ q, q < 1 → Memory.read (loaded 4#32 15#32 1#32 0#32 0#32).textBuf q = [0x41#8][q]?) :=
  ⟨by decide, by decide, by decide, rfl, ⟨rfl, rfl⟩, rfl, by decide, by decide, by decide⟩

theorem witness_AddroffWritesTwiceTheFrame :
    Outstanding (started 5#32 0x1FFFFF#32 0#32 0#32) 5#32 0x1FFFFF#32 0#32 0#32 ∧ (0x1FFFFF#32).toNat ≤ 0x1FFFFF ∧
    Outstanding (started 5#32 0x200000#32 0#32 0#32) 5#32 0x200000#32 0#32 0#32 ∧ 0x1FFFFF < (0x200000#32).toNat :=
  ⟨⟨rfl, rfl⟩, by decide, ⟨rfl, rfl⟩, by decide⟩

/-- Address 0x200000; 257 characters; 86 characters, 69 words; one unwritten character; and address 0 with "A". -/
theorem witness_EnctxBuildsTheTransmission :
    0x1FFFFF < (0x200000#32).toNat ∧
    (started 6#32 0#32 257#32 0#32).params.textMax < (257#32).toNat ∧
    (started 6#32 0#32 86#32 0#32).params.wordMax < Claims.transmissionLength 0#32 86 ∧
    Memory.read (started 6#32 0#32 1#32 0#32).textBuf 0 = none ∧
    (Outstanding (loaded 6#32 0#32 1#32 0#32 0#32) 6#32 0#32 1#32 0#32 ∧ (0#32).toNat ≤ 0x1FFFFF ∧
      Claims.transmissionLength 0#32 1 ≤ (loaded 6#32 0#32 1#32 0#32 0#32).params.wordMax ∧
      ∀ q, q < 1 → Memory.read (loaded 6#32 0#32 1#32 0#32 0#32).textBuf q = [0x41#8][q]?) :=
  ⟨by decide, by decide, by decide, rfl, ⟨rfl, rfl⟩, by decide, by decide, by decide⟩

theorem witness_TxlenWritesTheTransmissionLength :
    Outstanding (started 7#32 0x1FFFFF#32 0xFFFFFFFF#32 0#32) 7#32 0x1FFFFF#32 0xFFFFFFFF#32 0#32 ∧
    (0x1FFFFF#32).toNat ≤ 0x1FFFFF ∧
    Outstanding (started 7#32 0x200000#32 0#32 0#32) 7#32 0x200000#32 0#32 0#32 ∧ 0x1FFFFF < (0x200000#32).toNat :=
  ⟨⟨rfl, rfl⟩, by decide, ⟨rfl, rfl⟩, by decide⟩

/-- Zero rates, the smallest overflowing word count at the default rates, and the largest that fits (95 §2.6). -/
theorem witness_PcmlenWritesTheByteCount :
    Outstanding (started 8#32 0#32 512#32 1#32) 8#32 0#32 512#32 1#32 ∧
    (Outstanding (started 8#32 22050#32 512#32 1558265#32) 8#32 22050#32 512#32 1558265#32 ∧
      0xFFFFFFFF < Claims.byteCount 22050 512 1558265) ∧
    (Outstanding (started 8#32 22050#32 512#32 1558264#32) 8#32 22050#32 512#32 1558264#32 ∧
      Claims.byteCount 22050 512 1558264 ≤ 0xFFFFFFFF) :=
  ⟨⟨rfl, rfl⟩, ⟨⟨rfl, rfl⟩, by decide⟩, ⟨rfl, rfl⟩, by decide⟩

/-- Baud 1000; the largest operands; 65 words; 48 words at the default rates; an unwritten word; and one written word. -/
theorem witness_PcmencModulatesWordsIntoBytes :
    (38400 % 1000 ≠ 0) ∧
    0xFFFFFFFF < Claims.byteCount 0xFFFFFFFF 1 0xFFFFFFFF ∧
    (started 9#32 22050#32 512#32 65#32).params.wordMax < 65 ∧
    ((started 9#32 22050#32 512#32 48#32).params.pcmMax < Claims.byteCount 22050 512 48) ∧
    Memory.read (started 9#32 1#32 38400#32 1#32).wordBuf 0 = none ∧
    (Outstanding (loaded 9#32 38400#32 38400#32 1#32 1#32) 9#32 38400#32 38400#32 1#32 ∧ 38400 % 38400 = 0 ∧
      Claims.byteCount 38400 38400 1 = 64 ∧
      ∀ k, k < 1 → Memory.read (loaded 9#32 38400#32 38400#32 1#32 1#32).wordBuf k ≠ none) :=
  ⟨by decide, by decide, by decide, by decide, rfl, ⟨rfl, rfl⟩, by decide, by decide, by decide⟩

theorem witness_CompletionFrameOfEveryCommand :
    (∃ t, exec .nop (started 0#32 0#32 0#32 0#32) = .next t) ∧
    (∃ t, exec .encascii (loaded 4#32 0#32 1#32 0#32 0#32) = .next t) ∧
    (∃ t, exec .pcmenc (loaded 9#32 38400#32 38400#32 1#32 1#32) = .next t) := ⟨⟨_, rfl⟩, ⟨_, rfl⟩, ⟨_, rfl⟩⟩

theorem witness_ErrorsArePrecise :
    (∃ t, exec .crc (started 1#32 0x200000#32 0#32 0#32) = .next t ∧ t.faultMark = none ∧ errFlag t.status = true) ∧
    (∃ t, exec .encascii (started 4#32 0#32 1#32 0#32) = .next t ∧ t.faultMark ≠ none) :=
  ⟨⟨_, rfl, rfl, by decide⟩, ⟨_, rfl, by decide⟩⟩

theorem witness_EveryOutstandingCommandCompletes :
    ∃ t, exec .parity (started 2#32 7#32 0#32 0#32) = .next t := ⟨_, rfl⟩

theorem witness_OutcomeDependsOnOperandsAndInputBuffers :
    Outstanding (started 1#32 3#32 0#32 0#32) 1#32 3#32 0#32 0#32 ∧
    Outstanding { started 1#32 3#32 0#32 0#32 with res0 := 9#32 } 1#32 3#32 0#32 0#32 ∧
    (∃ t, exec .crc (started 1#32 3#32 0#32 0#32) = .next t ∧ t.faultMark = none ∧ t.status = 2#32) ∧
    (∃ t, exec .crc { started 1#32 3#32 0#32 0#32 with res0 := 9#32 } = .next t) :=
  ⟨⟨rfl, rfl⟩, ⟨rfl, rfl⟩, ⟨_, rfl, rfl, by decide⟩, ⟨_, rfl⟩⟩

theorem witness_UnlistedOperandsAreIgnored :
    (1 < Claims.operandsRead .crc → (1#32 : Word) = 2#32) ∧
    ∃ t, exec .crc { State.reset with phase := .busy 1#32 3#32 1#32 1#32 } = .next t := ⟨by decide, ⟨_, rfl⟩⟩

theorem witness_CmdWriteStartsACommand :
    Turn (scheduled [.write 0x000000#21 4 5#32]) (.write 0x000000#21 4 5#32) [] ∧
    (scheduled [.write 0x000000#21 4 5#32]).phase = .ready := ⟨⟨rfl, rfl⟩, rfl⟩

/-- Each clause at the last aligned offset of its range. -/
theorem witness_HostWriteStoresAtTheMappedElement :
    Turn (scheduled [.write 0x000010#21 4 5#32]) (.write 0x000010#21 4 5#32) [] ∧
    ((0x0100FC#21).toNat % 4 = 0 ∧ (0x0100FC#21).toNat = 0x010000 + 252 ∧ 252 < State.reset.params.textMax) ∧
    ((0x0200FC#21).toNat % 4 = 0 ∧ (0x0200FC#21).toNat = 0x020000 + 4 * 63 ∧ 63 < State.reset.params.wordMax) ∧
    ((0x11FFFC#21).toNat % 4 = 0 ∧ (0x11FFFC#21).toNat = 0x100000 + 131068 ∧ 131068 < State.reset.params.pcmMax) :=
  ⟨⟨rfl, rfl⟩, by decide, by decide, by decide⟩

theorem witness_HostReadReturnsTheMappedElement :
    Turn (scheduled [.read 0x000014#21 4]) (.read 0x000014#21 4) [] ∧ (0x000014#21).toNat % 4 = 0 ∧
    (0x000014#21).toNat = 0x014 ∧
    Memory.read [(0, 0x41#8), (1, 0#8), (2, 0#8), (3, 0#8)] 0 = some ((0x00000041#32).extractLsb' (8 * 0) 8) :=
  ⟨⟨rfl, rfl⟩, by decide, by decide, by decide⟩

theorem witness_UnwrittenElementsReadAsTheDraw :
    Turn (scheduled [.read 0x0200FC#21 4]) (.read 0x0200FC#21 4) [] ∧ (0x0200FC#21).toNat = 0x020000 + 4 * 63 ∧
    63 < (scheduled [.read 0x0200FC#21 4]).params.wordMax ∧
    Memory.read (scheduled [.read 0x0200FC#21 4]).wordBuf 63 = none ∧
    (0x0100FC#21).toNat = 0x010000 + 252 ∧ (0x11FFFC#21).toNat = 0x100000 + 131068 :=
  ⟨⟨rfl, rfl⟩, by decide, by decide, rfl, by decide, by decide⟩

/-- A Host write of TEXT_BUF[3], then another write, then a read that covers TEXT_BUF[3]. -/
def hostWriteThenRead : State :=
  scheduled [.write 0x010000#21 4 0x05000000#32, .write 0x010004#21 4 6#32, .read 0x010000#21 4]

/-- ENCASCII's completion, which writes WORD_BUF[0], then a STATUS read, then a read of WORD_BUF[0]. -/
def coreWriteThenRead : State :=
  { loaded 4#32 0#32 1#32 0#32 0#32 with schedule := [.core, .read 0x000004#21 4, .read 0x020000#21 4] }

/-- A read directly after a write; a Host's write with another step between; the Core's write with another step between. -/
theorem witness_HostReadReturnsTheLastWrite :
    ((scheduled [.write 0x010000#21 4 5#32, .read 0x010000#21 4]).faultMark = none ∧
      (scheduled [.write 0x010000#21 4 5#32, .read 0x010000#21 4]).phase = .ready ∧ (0x010000#21).toNat ≠ 0 ∧
      ¬ Claims.BreaksBusRule State.reset.params 0x010000#21 4 true) ∧
    (∃ t u, step hostWriteThenRead = .next t ∧ Claims.Writes hostWriteThenRead (.text 3) 5#32 ∧
      Sys2Proof.core.run 1 t = .next u ∧
      (∀ j w, j < 1 → Sys2Proof.core.run j t = .next w →
        (∀ r, w.schedule ≠ .reset :: r) ∧ ∀ v', ¬ Claims.Writes w (.text 3) v') ∧
      Turn u (.read 0x010000#21 4) [] ∧ u.phase = .ready ∧
      ¬ Claims.BreaksBusRule u.params 0x010000#21 4 false ∧ Claims.partOf 0x010000#21 0#32 (.text 3) ≠ none) ∧
    (∃ t u, step coreWriteThenRead = .next t ∧
      Claims.Writes coreWriteThenRead (.word 0) (encodeCodeword 0x182000#21) ∧
      Sys2Proof.core.run 1 t = .next u ∧
      (∀ j w, j < 1 → Sys2Proof.core.run j t = .next w →
        (∀ r, w.schedule ≠ .reset :: r) ∧ ∀ v', ¬ Claims.Writes w (.word 0) v') ∧
      Turn u (.read 0x020000#21 4) [] ∧ u.phase = .ready ∧
      ¬ Claims.BreaksBusRule u.params 0x020000#21 4 false ∧ Claims.partOf 0x020000#21 0#32 (.word 0) ≠ none) := by
  refine ⟨⟨rfl, rfl, by decide, by unfold Claims.BreaksBusRule; decide⟩, ⟨_, _, rfl, ?_, rfl, ?_, ⟨rfl, rfl⟩, rfl, ?_, by decide⟩,
    ⟨_, _, rfl, ?_, rfl, ?_, ⟨rfl, rfl⟩, rfl, ?_, by decide⟩⟩
  · exact .inl ⟨_, _, _, rfl, rfl, by unfold Claims.BreaksBusRule; decide, .inl (by decide)⟩
  · rintro j w hj hw
    obtain rfl : j = 0 := by omega
    cases hw
    refine ⟨(fun r h => by cases h), ?_⟩
    rintro v' (⟨off, x, rest, hs, -, -, hp⟩ | ⟨_, _, _, _, hp, -⟩)
    · cases hs
      revert hp
      simp [Claims.partOf]
    · cases hp
  · unfold Claims.BreaksBusRule; decide
  · exact .inr ⟨_, _, _, _, rfl, .inr ⟨_, rfl⟩, by decide +kernel⟩
  · rintro j w hj hw
    obtain rfl : j = 0 := by omega
    cases hw
    refine ⟨(fun r h => by cases h), ?_⟩
    rintro v' (⟨off, x, rest, hs, -⟩ | ⟨_, _, _, _, hp, -⟩)
    · cases hs
    · cases hp
  · unfold Claims.BreaksBusRule; decide

theorem witness_BusFaultExactlyWhenTheAccessBreaksTheRule :
    Turn (scheduled [.read 0x000018#21 4]) (.read 0x000018#21 4) [] ∧
    Claims.BreaksBusRule State.reset.params 0x000018#21 4 false ∧
    ¬ Claims.BreaksBusRule State.reset.params 0x000014#21 4 false ∧
    Turn (scheduled [.write 0x000014#21 4 0#32]) (.write 0x000014#21 4 0#32) [] ∧
    Claims.BreaksBusRule State.reset.params 0x000014#21 4 true ∧
    ¬ Claims.BreaksBusRule State.reset.params 0x000010#21 4 true := by
  refine ⟨⟨rfl, rfl⟩, ?_, ?_, ⟨rfl, rfl⟩, ?_, ?_⟩ <;> unfold Claims.BreaksBusRule <;> decide

theorem witness_BusyCoreAllowsOnlyStatusReads :
    Outstanding { started 1#32 0#32 0#32 0#32 with schedule := [.write 0x000008#21 4 5#32] } 1#32 0#32 0#32 0#32 ∧
    ¬ Claims.BreaksBusRule State.reset.params 0x000008#21 4 true ∧
    ¬ Claims.BreaksBusRule State.reset.params 0x000014#21 4 false ∧ (0x000014#21).toNat ≠ 0x004 ∧
    Outstanding { started 1#32 0#32 0#32 0#32 with schedule := [.read 0x000004#21 4] } 1#32 0#32 0#32 0#32 :=
  ⟨⟨rfl, rfl⟩, by unfold Claims.BreaksBusRule; decide, by unfold Claims.BreaksBusRule; decide, by decide, ⟨rfl, rfl⟩⟩

theorem witness_WindowMapIsInjective :
    accessTarget State.reset.params 0x0200FC#21 4 = some (.word 63) := by decide

theorem witness_FaultedStateStopsEveryAgent :
    (State.reset.markFault .busFault).faultMark = some .busFault ∧
    (∀ rest, (State.reset.markFault .busFault).schedule ≠ .reset :: rest) ∧
    ({ State.reset with faultMark := some .busFault, schedule := [.reset] } : State).schedule = [.reset] :=
  ⟨rfl, (fun _ h => by cases h), rfl⟩

theorem witness_ResetSetsEveryPieceOfState :
    ({ started 1#32 0#32 0#32 0#32 with schedule := [.reset] } : State).schedule = .reset :: [] := rfl

theorem witness_IdleCoreHoldsItsState :
    State.reset.phase = .ready ∧ State.reset.faultMark = none ∧ State.reset.schedule = [] := ⟨rfl, rfl, rfl⟩

theorem witness_PhaseChangesOnlyByStartCompletionReset :
    (∃ t, step (scheduled [.write 0x000000#21 4 1#32]) = .next t ∧ t.phase ≠ State.reset.phase) ∧
    (∃ t, step (started 0#32 0#32 0#32 0#32) = .next t ∧ t.phase ≠ (started 0#32 0#32 0#32 0#32).phase) ∧
    (∃ t, step { started 0#32 0#32 0#32 0#32 with schedule := [.reset] } = .next t ∧
      t.phase ≠ (started 0#32 0#32 0#32 0#32).phase) :=
  ⟨⟨_, rfl, by decide⟩, ⟨_, rfl, by decide⟩, ⟨_, rfl, by decide⟩⟩

theorem witness_RegistersChangeOnlyByTheirOwner :
    (∃ t, step (scheduled [.write 0x000008#21 4 5#32]) = .next t ∧ t.arg0 ≠ State.reset.arg0) ∧
    (∀ rest, (scheduled [.write 0x000008#21 4 5#32]).schedule ≠ .reset :: rest) ∧
    (∃ t, step (started 2#32 7#32 0#32 0#32) = .next t ∧ t.res0 ≠ State.reset.res0) :=
  ⟨⟨_, rfl, by decide⟩, (fun _ h => by cases h), ⟨_, rfl, by decide⟩⟩

theorem witness_EveryStepKeepsTheMemoriesCanonical :
    MemoryOk (loaded 6#32 0#32 1#32 0#32 0#32) ∧ ∃ t, step (loaded 6#32 0#32 1#32 0#32 0#32) = .next t :=
  ⟨⟨by decide, by decide, by decide, by decide, by decide, by decide, by decide⟩, ⟨_, rfl⟩⟩

theorem witness_EveryStepKeepsStatusConsistent :
    StatusOk (started 1#32 3#32 0#32 0#32) ∧ ∃ t, step (started 1#32 3#32 0#32 0#32) = .next t :=
  ⟨⟨by decide, by decide, by decide, by decide, by decide, by decide⟩, ⟨_, rfl⟩⟩

theorem witness_EveryStepKeepsOperandsStable :
    OperandsStable (started 1#32 3#32 4#32 5#32) ∧ MarkOk (started 1#32 3#32 4#32 5#32) ∧
    ∃ t, step (started 1#32 3#32 4#32 5#32) = .next t := ⟨⟨rfl, rfl, rfl, rfl⟩, fun _ => rfl, ⟨_, rfl⟩⟩

theorem witness_PolledCommandCompletes :
    Outstanding { started 1#32 3#32 0#32 0#32 with schedule := List.replicate 2 (.read 0x000004#21 4) } 1#32 3#32 0#32 0#32 :=
  ⟨rfl, rfl⟩

theorem witness_CrcIsTheUniqueRemainder : Claims.IsRemainder 0#21 0#10 := ⟨0#21, by decide⟩

theorem witness_PackHypotheses : 15 ≤ 15 ∧ 0 < Claims.messageCount 1 ∧ (pack 15 [0x41#7]).1[1]? = some 0x7CD215D8#32 := by
  decide

theorem witness_TransmissionLengthIsBounded : 0xFFFFFFFF < 2 ^ 32 := by decide

theorem witness_FramerPhaseLengthsAreCountDriven :
    14 = (7#21).toNat % 8 * 2 ∧ 0 = Claims.messageCount ([] : List (BitVec 7)).length := by decide

theorem witness_ResamplingIndexIsInRange :
    Config.symbolRate % 512 = 0 ∧ 1377 < pcmlen 22050 512 [0xAAAAAAAA#32].length / 2 := by decide

/-- The smallest and the largest address padding. -/
theorem witness_TransmissionHasTheBatchLayout : 0 = (0#21).toNat % 8 * 2 ∧ 14 = (0x1FFFFF#21).toNat % 8 * 2 := by decide

theorem witness_OutputSampleHasTheClosedForm :
    38400 % 512 = 0 ∧ 1377 < pcmlen 22050 512 [0xAAAAAAAA#32].length / 2 ∧ 31 = 1377 * 512 / 22050 := by decide

theorem witness_PcmencCountEqualsPcmlenCount :
    Outstanding (loaded 9#32 38400#32 38400#32 1#32 1#32) 9#32 38400#32 38400#32 1#32 ∧
    (∃ t, exec .pcmenc (loaded 9#32 38400#32 38400#32 1#32 1#32) = .next t ∧ t.status = 2#32 ∧ t.faultMark = none) ∧
    (∃ u, exec .pcmlen (loaded 9#32 38400#32 38400#32 1#32 1#32) = .next u) :=
  ⟨⟨rfl, rfl⟩, ⟨_, rfl, by decide, rfl⟩, ⟨_, rfl⟩⟩

end Sys2Proof.Tests
end

section
/-! PROOFS. The host's accesses to the register block, command start (R42) and the reset values (R40). -/

namespace Sys2Proof.Machine

/-! ## Accesses to the register block -/

@[simp] theorem mapOffset_regOffset (p : Config.Params) (r : Reg) : mapOffset p (regOffset r) = some (.reg r) := by
  cases r <;> rfl

/-- Every register stands at a multiple of 4 (R21). -/
@[simp] theorem regOffset_mod_four (r : Reg) : regOffset r % 4 = 0 := by
  cases r <;> rfl

theorem accessTarget_reg (p : Config.Params) {off : Offset} {r : Reg} (h : off.toNat = regOffset r) :
    accessTarget p off 4 = some (.reg r) := by
  simp [accessTarget, h]

theorem writeTargetOf_of_accessTarget {p : Config.Params} {off : Offset} {size : Nat} {t : Target}
    (ht : accessTarget p off size = some t) (hw : t.writable = true) : writeTargetOf p off size = some t := by
  simp [writeTargetOf, ht, hw]

/-! ## Host writes in phase Ready -/

theorem State.isBusy_eq_false {s : State} (hp : s.phase = .ready) : s.isBusy = false := by
  simp [State.isBusy, hp]

theorem hostWrite_ready {off : Offset} {size : Nat} (v : Word) {s : State} {t : Target} (hp : s.phase = .ready)
    (ht : writeTargetOf s.params off size = some t) : hostWrite off size v s = s.writeTarget v t := by
  simp [hostWrite, ht, State.isBusy_eq_false hp]

/-- A host write to a writable target, on the Host's turn in phase Ready, is one step (R54). -/
theorem step_write_ready {s : State} {off : Offset} {size : Nat} {v : Word} {rest : List Event} {t : Target}
    (h : Turn s (.write off size v) rest) (hp : s.phase = .ready) (ht : writeTargetOf s.params off size = some t) :
    step s = .next (State.writeTarget { s with schedule := rest } v t) := by
  obtain ⟨hmark, hsched⟩ := h
  have hwrite := hostWrite_ready v (s := { s with schedule := rest }) hp ht
  rw [step_write hmark hsched, hwrite]

/-- Settles O21: offset 0 is CMD, which the Host may write, and a write to it in phase Ready is command start. -/
theorem cmdWriteStartsACommand : Obligations.CmdWriteStartsACommand := by
  unfold Obligations.CmdWriteStartsACommand
  intro s v rest hturn hready
  have htarget : writeTargetOf s.params 0x000000#21 4 = some (.reg .cmd) :=
    writeTargetOf_of_accessTarget (accessTarget_reg s.params rfl) rfl
  rw [step_write_ready hturn hready htarget]
  simp [State.writeTarget, State.commandStart]

/-! ## Reset -/

@[simp] theorem Memory.read_nil {α : Type} (i : Nat) : Memory.read ([] : Memory α) i = none := rfl

/-- Settles O31: the registers, the phase and the mark hold R40's values by definition, and a buffer with no entry has no
written element. -/
theorem resetStateHoldsTheResetValues : Obligations.ResetStateHoldsTheResetValues := by
  unfold Obligations.ResetStateHoldsTheResetValues
  have hbuffers (k : Nat) : Memory.read State.reset.textBuf k = none ∧ Memory.read State.reset.wordBuf k = none ∧
      Memory.read State.reset.pcmBuf k = none := ⟨Memory.read_nil k, Memory.read_nil k, Memory.read_nil k⟩
  exact ⟨rfl, rfl, rfl, rfl, rfl, rfl, hbuffers, rfl, rfl⟩

end Sys2Proof.Machine
end

section
/-! PROOFS. The bus fault (R58): the window's map has no target exactly at the offsets the rule names. -/

namespace Sys2Proof.Machine

/-! ## Where the map has no target -/

theorem regAt_eq_none_iff {o : Nat} (h4 : o % 4 = 0) : regAt o = none ↔ 0x000018 ≤ o := by
  rcases regAt_cases o with ⟨r, rfl, hr⟩ | ⟨hr, hne⟩
  · have hlt : regOffset r < 0x000018 := by cases r <;> decide
    simp only [hr, reduceCtorEq, false_iff]
    omega
  · have hcmd : o ≠ 0x000 := hne .cmd
    have hstatus : o ≠ 0x004 := hne .status
    have harg0 : o ≠ 0x008 := hne .arg0
    have harg1 : o ≠ 0x00C := hne .arg1
    have harg2 : o ≠ 0x010 := hne .arg2
    have hres0 : o ≠ 0x014 := hne .res0
    simp only [hr, true_iff]
    omega

/-- An aligned offset has no target exactly where it is reserved (R51) or unimplemented (R52). -/
theorem mapOffset_eq_none_iff (p : Config.Params) {o : Nat} (h4 : o % 4 = 0) :
    mapOffset p o = none ↔
      (0x000018 ≤ o ∧ o < 0x010000) ∨ (0x030000 ≤ o ∧ o < 0x100000) ∨
      (0x010000 + p.textMax ≤ o ∧ o < 0x020000) ∨ (0x020000 + 4 * p.wordMax ≤ o ∧ o < 0x030000) ∨
      0x100000 + p.pcmMax ≤ o := by
  unfold mapOffset textBase wordBase wordEnd pcmBase
  by_cases hreg : o < 0x010000
  · rw [if_pos hreg, Option.map_eq_none_iff, regAt_eq_none_iff h4]
    omega
  rw [if_neg hreg]
  by_cases htext : o < 0x020000
  · rw [if_pos htext, ite_eq_right_iff, imp_iff_not (Option.some_ne_none _)]
    omega
  rw [if_neg htext]
  by_cases hword : o < 0x030000
  · rw [if_pos hword, ite_eq_right_iff, imp_iff_not (Option.some_ne_none _)]
    omega
  rw [if_neg hword]
  by_cases hgap : o < 0x100000
  · rw [if_pos hgap, eq_self, true_iff]
    omega
  · rw [if_neg hgap, ite_eq_right_iff, imp_iff_not (Option.some_ne_none _)]
    omega

/-! ## Where an access has no target -/

theorem accessTarget_eq_none_iff (p : Config.Params) (off : Offset) (size : Nat) :
    accessTarget p off size = none ↔ Claims.BreaksBusRule p off size false := by
  unfold accessTarget Claims.BreaksBusRule
  by_cases hacc : size = 4 ∧ off.toNat % 4 = 0
  · simp [hacc, mapOffset_eq_none_iff p hacc.2]
  · rw [if_neg hacc]
    rcases not_and_or.1 hacc with hsize | halign
    · exact iff_of_true rfl (.inl hsize)
    · exact iff_of_true rfl (.inr (.inl halign))

/-- The rule for writes is the rule for reads and the two read-only registers (R58). -/
theorem breaksBusRule_write_iff (p : Config.Params) (off : Offset) (size : Nat) :
    Claims.BreaksBusRule p off size true ↔
      Claims.BreaksBusRule p off size false ∨ off.toNat = 0x004 ∨ off.toNat = 0x014 := by
  simp [Claims.BreaksBusRule, or_assoc]

/-- The targets the Host may not write are STATUS and RES0 (R21). -/
theorem writable_eq_false_iff {p : Config.Params} {off : Offset} {size : Nat} {t : Target}
    (h : accessTarget p off size = some t) : t.writable = false ↔ off.toNat = 0x004 ∨ off.toNat = 0x014 := by
  obtain ⟨-, -, hmap⟩ := accessTarget_some h
  have hbases : textBase = 0x010000 ∧ wordBase = 0x020000 ∧ pcmBase = 0x100000 := ⟨rfl, rfl, rfl⟩
  rcases mapOffset_some hmap with ⟨r, rfl, ho⟩ | ⟨i, rfl, ho, -⟩ | ⟨k, rfl, ho, -⟩ | ⟨i, rfl, ho, -⟩
  · rw [ho]
    cases r <;> decide
  all_goals
    simp only [Target.writable, Bool.true_eq_false, false_iff]
    omega

theorem writeTargetOf_eq_none_iff (p : Config.Params) (off : Offset) (size : Nat) :
    writeTargetOf p off size = none ↔ Claims.BreaksBusRule p off size true := by
  rw [breaksBusRule_write_iff, ← accessTarget_eq_none_iff]
  cases ht : accessTarget p off size with
  | none => simp [writeTargetOf, ht]
  | some t => simp [writeTargetOf, ht, ← writable_eq_false_iff ht]

/-! ## What an access does with and without a target -/

theorem hostRead_busFault {off : Offset} {size : Nat} {s : State} (h : accessTarget s.params off size = none) :
    hostRead off size s = s.markFault .busFault := by
  simp [hostRead, h]

theorem hostWrite_busFault {off : Offset} {size : Nat} (v : Word) {s : State}
    (h : writeTargetOf s.params off size = none) : hostWrite off size v s = s.markFault .busFault := by
  simp [hostWrite, h]

theorem hostRead_faultMark_ne_busFault {off : Offset} {size : Nat} {s : State} (hm : s.faultMark = none)
    (h : accessTarget s.params off size ≠ none) : (hostRead off size s).faultMark ≠ some .busFault := by
  rcases hostRead_cases off size s with ⟨hnone, -⟩ | ⟨t, -, -, -, he⟩ | ⟨t, -, -, he⟩
  · exact absurd hnone h
  · simp [he]
  · simp [he, hm]

theorem hostWrite_faultMark_ne_busFault {off : Offset} {size : Nat} (v : Word) {s : State} (hm : s.faultMark = none)
    (h : writeTargetOf s.params off size ≠ none) : (hostWrite off size v s).faultMark ≠ some .busFault := by
  rcases hostWrite_cases off size v s with ⟨hnone, -⟩ | ⟨t, -, -, he⟩ | ⟨t, -, -, he⟩
  · exact absurd hnone h
  · simp [he]
  · obtain ⟨-, -, hmark, -⟩ := writeTarget_frame s v t
    simp [he, hmark, hm]

/-- Settles O26: an access breaks R58 exactly where it has no target, and no other access sets BUS_FAULT. -/
theorem busFaultExactlyWhenTheAccessBreaksTheRule : Obligations.BusFaultExactlyWhenTheAccessBreaksTheRule := by
  unfold Obligations.BusFaultExactlyWhenTheAccessBreaksTheRule
  simp only [← accessTarget_eq_none_iff, ← writeTargetOf_eq_none_iff]
  intro s off size v rest
  constructor
  · rintro ⟨hm, hs⟩
    rw [step_read hm hs]
    exact ⟨fun h => congrArg _ (hostRead_busFault h), fun h => ⟨_, rfl, hostRead_faultMark_ne_busFault hm h⟩⟩
  · rintro ⟨hm, hs⟩
    rw [step_write hm hs]
    exact ⟨fun h => congrArg _ (hostWrite_busFault v h), fun h => ⟨_, rfl, hostWrite_faultMark_ne_busFault v hm h⟩⟩

end Sys2Proof.Machine
end

section
/-! PROOFS. The decoder inverted (R82, R83): which word selects a command, and which words none. -/

namespace Sys2Proof

theorem decode_eq_instr_iff_fields (v : Word) (i : Instr) :
    decode v = .instr i ↔ rsvdField v = 0#28 ∧ opcodeField v = opcode i := by
  rw [← ofOpcode_eq_some]
  unfold decode
  by_cases hr : rsvdField v = 0#28
  · cases ho : ofOpcode (opcodeField v) <;> simp [hr]
  · simp [hr]

theorem toNat_encode (i : Instr) : (encode i).toNat = (opcode i).toNat := by
  cases i <;> rfl

/-- A word decodes to a command exactly when it is the command's encoding (R80, R82). -/
theorem decode_eq_instr_iff (v : Word) (i : Instr) : decode v = .instr i ↔ v = encode i := by
  have hfields := toNat_eq_fields v
  have hop := (opcodeField v).isLt
  have hi := (opcode i).isLt
  rw [decode_eq_instr_iff_fields, ← BitVec.toNat_inj, ← BitVec.toNat_inj, ← BitVec.toNat_inj, toNat_encode,
    BitVec.toNat_ofNat]
  omega

/-- The opcode map has no command at the numbers `0xA` to `0xF` alone (R81). -/
theorem ofOpcode_eq_none_iff (n : BitVec 4) : ofOpcode n = none ↔ 9 < n.toNat := by
  revert n
  decide

theorem decode_illegal_iff_fields (v : Word) :
    (∃ why, decode v = .illegal why) ↔ rsvdField v ≠ 0#28 ∨ 9 < (opcodeField v).toNat := by
  rw [← ofOpcode_eq_none_iff]
  unfold decode
  by_cases hr : rsvdField v = 0#28
  · cases ho : ofOpcode (opcodeField v) <;> simp [hr]
  · simp [hr]

theorem decode_illegal_iff (v : Word) : (∃ why, decode v = .illegal why) ↔ 9 < v.toNat := by
  have hfields := toNat_eq_fields v
  have hop := (opcodeField v).isLt
  rw [decode_illegal_iff_fields, Ne, ← BitVec.toNat_inj, BitVec.toNat_ofNat]
  omega

/-- Settles O1: a word decodes to a command exactly when it is its encoding, the command's number, and to none exactly above
the last number. -/
theorem commandWordSelectsExactlyItsOpcode : Obligations.CommandWordSelectsExactlyItsOpcode := by
  unfold Obligations.CommandWordSelectsExactlyItsOpcode
  intro v
  have hsel := decode_eq_instr_iff v
  exact ⟨hsel .nop, hsel .crc, hsel .parity, hsel .enccw, hsel .encascii, hsel .addroff, hsel .enctx, hsel .txlen,
    hsel .pcmlen, hsel .pcmenc, decode_illegal_iff v⟩

end Sys2Proof
end

section
/-! PROOFS. Codewords: the payload read back (R120), validity (R122), and which payload SYNC has (R92). -/

namespace Sys2Proof.Machine

theorem encodeCodeword_getLsbD_succ (p : BitVec 21) (k : Nat) :
    (encodeCodeword p).getLsbD (k + 1) = (payloadCrc p).getLsbD k :=
  (BitVec.getLsbD_append ..).trans (by simp)

theorem payloadCrc_getLsbD_add_ten (p : BitVec 21) (k : Nat) : (payloadCrc p).getLsbD (k + 10) = p.getLsbD k :=
  (BitVec.getLsbD_append ..).trans (by simp)

@[simp] theorem codewordPayload_encodeCodeword (p : BitVec 21) : codewordPayload (encodeCodeword p) = p := by
  apply BitVec.eq_of_getLsbD_eq
  intro i hi
  rw [codewordPayload, BitVec.getLsbD_extractLsb', show 11 + i = i + 10 + 1 by omega, encodeCodeword_getLsbD_succ,
    payloadCrc_getLsbD_add_ten]
  simp [hi]

@[simp] theorem validCodeword_encodeCodeword (p : BitVec 21) : validCodeword (encodeCodeword p) = true := by
  simp [validCodeword]

theorem validCodeword_sync : validCodeword Config.sync = true := by decide +kernel

theorem validCodeword_idle : validCodeword Config.idle = true := by decide +kernel

theorem encodeCodeword_ne_sync {p : BitVec 21} (h : p ≠ codewordPayload Config.sync) :
    encodeCodeword p ≠ Config.sync := by
  intro he
  exact h (by rw [← he, codewordPayload_encodeCodeword])

/-! ## Message words (R90) -/

/-- A codeword whose payload is a 20-bit chunk under FLAG_MESSAGE (R90). -/
def IsMessageWord (w : Word) : Prop := ∃ chunk : BitVec 20, w = encodeCodeword (messagePayload chunk)

theorem messagePayload_getLsbD_flag (chunk : BitVec 20) : (messagePayload chunk).getLsbD 20 = true := by
  simp [messagePayload, Config.flagMessage]

theorem IsMessageWord.validCodeword {w : Word} (h : IsMessageWord w) : validCodeword w = true := by
  obtain ⟨chunk, rfl⟩ := h
  exact validCodeword_encodeCodeword _

/-- SYNC is no message word: its payload has bit 20 clear (R92). -/
theorem IsMessageWord.ne_sync {w : Word} (h : IsMessageWord w) : w ≠ Config.sync := by
  obtain ⟨chunk, rfl⟩ := h
  refine encodeCodeword_ne_sync fun he => ?_
  have hflag := messagePayload_getLsbD_flag chunk
  rw [he] at hflag
  exact absurd hflag (by decide)

/-! ## The address word (R160, R163) -/

theorem addressOffset_eq (a : BitVec 21) : addressOffset a = a.toNat % 8 * 2 := by
  have hmask : a.toNat &&& 7 = a.toNat % 8 := Nat.and_two_pow_sub_one_eq_mod a.toNat 3
  simp [addressOffset, Config.frameSize, hmask]

theorem addressPayload_eq (a : BitVec 21) : addressPayload a = BitVec.ofNat 21 (a.toNat / 8 * 4 + 3) := by
  have ha := a.isLt
  have hor : a.toNat / 8 * 4 ||| 3 = a.toNat / 8 * 4 + 3 := by
    have := Nat.shiftLeft_add_eq_or_of_lt (show 3 < 2 ^ 2 by decide) (a.toNat / 8)
    rw [Nat.shiftLeft_eq] at this
    exact this.symm
  have hfit : a.toNat / 8 * 4 % 2097152 = a.toNat / 8 * 4 := by omega
  apply BitVec.eq_of_toNat_eq
  simp [addressPayload, Config.funcText, Nat.shiftRight_eq_div_pow, Nat.shiftLeft_eq, hfit, hor]
  omega

/-- An address word is not SYNC: its function bits are `0b11`, SYNC's payload ends in `0b10` (R92, R163). -/
theorem addressWord_ne_sync (a : BitVec 21) : encodeCodeword (addressPayload a) ≠ Config.sync := by
  refine encodeCodeword_ne_sync fun he => ?_
  have hfunc : (addressPayload a).getLsbD 0 = true := by simp [addressPayload, Config.funcText]
  rw [he] at hfunc
  exact absurd hfunc (by decide)

end Sys2Proof.Machine
end

section
/-! PROOFS. The batch grid (R95, R142): SYNC in every 17th place and none elsewhere, kept by the packer from its start. -/

namespace Sys2Proof.Machine

/-- The words `ws`, the first of them at place `start`, lie on the grid of batches: SYNC in place 16 of each 17, and words of
which `P` holds in the other 16 (R95, R142). -/
def BatchGrid (P : Word → Prop) (start : Nat) (ws : List Word) : Prop :=
  ∀ j w, ws[j]? = some w → if (start + j) % 17 = 16 then w = Config.sync else P w

variable {P Q : Word → Prop} {start : Nat}

theorem batchGrid_nil : BatchGrid P start [] := by
  intro j w h
  simp at h

theorem batchGrid_sync (h : start % 17 = 16) : BatchGrid P start [Config.sync] := by
  intro j w hj
  obtain rfl : j = 0 := by simpa using (List.getElem?_eq_some_iff.1 hj).1
  simpa [h, eq_comm] using hj

theorem BatchGrid.append {xs ys : List Word} (hx : BatchGrid P start xs) (hy : BatchGrid P (start + xs.length) ys) :
    BatchGrid P start (xs ++ ys) := by
  intro j w h
  by_cases hj : j < xs.length
  · exact hx j w (by rwa [List.getElem?_append_left hj] at h)
  · have := hy (j - xs.length) w (by rwa [List.getElem?_append_right (by omega)] at h)
    rwa [show start + xs.length + (j - xs.length) = start + j by omega] at this

/-- Words that stay inside one batch. -/
theorem batchGrid_of_within_batch {ws : List Word} (hP : ∀ w ∈ ws, P w) (h : start % 17 + ws.length ≤ 16) :
    BatchGrid P start ws := by
  intro j w hj
  have hlt := (List.getElem?_eq_some_iff.1 hj).1
  rw [if_neg (by omega)]
  exact hP w (List.mem_of_getElem? hj)

theorem BatchGrid.mono {ws : List Word} (hPQ : ∀ w, P w → Q w) (h : BatchGrid P start ws) : BatchGrid Q start ws := by
  intro j w hj
  have hw := h j w hj
  by_cases hplace : (start + j) % 17 = 16
  · rwa [if_pos hplace] at hw ⊢
  · rw [if_neg hplace] at hw ⊢
    exact hPQ w hw

theorem BatchGrid.congr_start {start' : Nat} {ws : List Word} (h : BatchGrid P start ws)
    (hs : start' % 17 = start % 17) : BatchGrid P start' ws := by
  intro j w hj
  rw [Nat.add_mod, hs, ← Nat.add_mod]
  exact h j w hj

theorem BatchGrid.getElem?_sync {ws : List Word} (h : BatchGrid P start ws) {i : Nat} (hi : i < ws.length)
    (hplace : (start + i) % 17 = 16) : ws[i]? = some Config.sync := by
  have hget := List.getElem?_eq_getElem hi
  have hw := h i _ hget
  rw [if_pos hplace] at hw
  rw [hget, hw]

theorem BatchGrid.exists_getElem?_of_ne_sync_place {ws : List Word} (h : BatchGrid P start ws) {i : Nat}
    (hi : i < ws.length) (hplace : (start + i) % 17 ≠ 16) : ∃ w, ws[i]? = some w ∧ P w := by
  have hget := List.getElem?_eq_getElem hi
  have hw := h i _ hget
  rw [if_neg hplace] at hw
  exact ⟨_, hget, hw⟩

/-! ## The packer (R140) -/

/-- A packer started at batch position `start` has put its words on the grid, and `pos` is the place of its next word. -/
structure Packer.OnGrid (start : Nat) (p : Packer) : Prop where
  pos_le : p.pos ≤ 15
  pos_eq : (start + p.out.length) % 17 = p.pos
  grid : BatchGrid IsMessageWord start p.out

theorem Packer.OnGrid.emit {p : Packer} (h : p.OnGrid start) : p.emit.OnGrid start := by
  obtain ⟨hle, hpos, hgrid⟩ := h
  have hmessage : BatchGrid IsMessageWord start (p.out ++ [encodeCodeword (messagePayload p.acc)]) :=
    hgrid.append (batchGrid_of_within_batch (by simpa using ⟨p.acc, rfl⟩) (by simp; omega))
  unfold Packer.emit Config.batchSize
  by_cases hlast : p.pos + 1 = 16
  · rw [if_pos hlast]
    refine ⟨by simp, by simp; omega, hmessage.append (batchGrid_sync ?_)⟩
    simp
    omega
  · rw [if_neg hlast]
    exact ⟨by simp; omega, by simp; omega, hmessage⟩

/-- Only `out` and `pos` matter to the grid. -/
theorem Packer.OnGrid.congr {p q : Packer} (h : p.OnGrid start) (hout : q.out = p.out) (hpos : q.pos = p.pos) :
    q.OnGrid start :=
  ⟨hpos ▸ h.pos_le, hout ▸ hpos ▸ h.pos_eq, hout ▸ h.grid⟩

theorem Packer.OnGrid.push {p : Packer} (b : Bool) (h : p.OnGrid start) : (p.push b).OnGrid start := by
  have hshift : Packer.OnGrid start
      { p with acc := (p.acc <<< 1) ||| (BitVec.ofBool b).setWidth 20, nb := p.nb + 1 } := h.congr rfl rfl
  simp only [Packer.push]
  split
  · exact hshift.emit
  · exact hshift

theorem Packer.OnGrid.foldl_push {p : Packer} (bits : List Bool) (h : p.OnGrid start) :
    (bits.foldl Packer.push p).OnGrid start := by
  induction bits generalizing p with
  | nil => exact h
  | cons b bits ih => exact ih (h.push b)

theorem Packer.OnGrid.flush {p : Packer} (h : p.OnGrid start) : p.flush.OnGrid start := by
  have hpad : Packer.OnGrid start { p with acc := p.acc <<< (Config.dataBits - p.nb) } := h.congr rfl rfl
  unfold Packer.flush
  split
  · exact hpad.emit
  · exact h

/-- `pack` keeps the grid from its offset on, and returns the place after its last word (R140, R142). -/
theorem pack_onGrid {offset : Nat} (ho : offset ≤ 15) (chars : List (BitVec 7)) :
    (pack offset chars).2 ≤ 15 ∧ (offset + (pack offset chars).1.length) % 17 = (pack offset chars).2 ∧
      BatchGrid IsMessageWord offset (pack offset chars).1 := by
  have hstart : Packer.OnGrid offset { out := [], pos := offset, acc := 0#20, nb := 0 } :=
    ⟨ho, by simp; omega, batchGrid_nil⟩
  obtain ⟨hle, hpos, hgrid⟩ := (hstart.foldl_push (textBits chars)).flush
  exact ⟨hle, hpos, hgrid⟩

end Sys2Proof.Machine
end

section
/-! PROOFS. The transmission (R164): its words as one list, and their places on the batch grid (R95, R169). -/

namespace Sys2Proof.Machine

/-- The words from the first SYNC to the address word (R162, R163). -/
def batchHead (a : BitVec 21) : List Word :=
  [Config.sync] ++ (List.replicate (addressOffset a) Config.idle ++ [encodeCodeword (addressPayload a)])

/-- The words of a transmission after the preamble: the head, the message body, and IDLE to the end of the batch, the
terminator with the batch padding (R164–R166). -/
def batchPart (a : BitVec 21) (chars : List (BitVec 7)) : List Word :=
  batchHead a ++ ((messageBody a chars).1 ++ List.replicate (16 - (messageBody a chars).2) Config.idle)

@[simp] theorem batchHead_length (a : BitVec 21) : (batchHead a).length = addressOffset a + 2 := by
  simp [batchHead]

theorem addressOffset_le (a : BitVec 21) : addressOffset a ≤ 14 := by
  rw [addressOffset_eq]
  omega

theorem messageBody_onGrid (a : BitVec 21) (chars : List (BitVec 7)) :
    (messageBody a chars).2 ≤ 15 ∧
      (addressOffset a + 1 + (messageBody a chars).1.length) % 17 = (messageBody a chars).2 ∧
      BatchGrid IsMessageWord (addressOffset a + 1) (messageBody a chars).1 :=
  pack_onGrid (by have := addressOffset_le a; omega) chars

theorem encodeTransmission_eq (a : BitVec 21) (chars : List (BitVec 7)) :
    encodeTransmission a chars = List.replicate 18 Config.preambleWord ++ batchPart a chars := by
  have hpos := (messageBody_onGrid a chars).1
  have hidle : [Config.idle] ++ List.replicate (16 - ((messageBody a chars).2 + 1)) Config.idle =
      List.replicate (16 - (messageBody a chars).2) Config.idle := by
    rw [List.singleton_append, ← List.replicate_succ]
    congr 1
    omega
  rw [batchPart, ← hidle]
  simp [encodeTransmission, batchHead, framerWords, Config.preambleWords, Config.batchSize]

theorem encodeTransmission_getElem?_preamble (a : BitVec 21) (chars : List (BitVec 7)) {i : Nat} (hi : i < 18) :
    (encodeTransmission a chars)[i]? = some Config.preambleWord := by
  rw [encodeTransmission_eq, List.getElem?_append_left (by simpa using hi), List.getElem?_replicate_of_lt hi]

theorem encodeTransmission_getElem?_batchPart (a : BitVec 21) (chars : List (BitVec 7)) {i : Nat} (hi : 18 ≤ i) :
    (encodeTransmission a chars)[i]? = (batchPart a chars)[i - 18]? := by
  rw [encodeTransmission_eq, List.getElem?_append_right (by simpa using hi), List.length_replicate]

theorem encodeTransmission_length (a : BitVec 21) (chars : List (BitVec 7)) :
    (encodeTransmission a chars).length = 18 + (batchPart a chars).length := by
  rw [encodeTransmission_eq, List.length_append, List.length_replicate]

/-! ## The words after the preamble, in order (R164) -/

theorem batchPart_length (a : BitVec 21) (chars : List (BitVec 7)) : (batchPart a chars).length =
    addressOffset a + 2 + (messageBody a chars).1.length + (16 - (messageBody a chars).2) := by
  simp [batchPart, Nat.add_assoc]

theorem batchPart_getElem?_head (a : BitVec 21) (chars : List (BitVec 7)) {i : Nat} (hi : i < addressOffset a + 2) :
    (batchPart a chars)[i]? = (batchHead a)[i]? :=
  List.getElem?_append_left (by simpa using hi)

theorem batchPart_getElem?_padding (a : BitVec 21) (chars : List (BitVec 7)) {k : Nat} (hk : k < addressOffset a) :
    (batchPart a chars)[k + 1]? = some Config.idle := by
  rw [batchPart_getElem?_head a chars (by omega)]
  simp [batchHead, List.getElem?_append, hk]

theorem batchPart_getElem?_address (a : BitVec 21) (chars : List (BitVec 7)) :
    (batchPart a chars)[addressOffset a + 1]? = some (encodeCodeword (addressPayload a)) := by
  rw [batchPart_getElem?_head a chars (by omega)]
  simp [batchHead]

theorem batchPart_getElem?_add_head (a : BitVec 21) (chars : List (BitVec 7)) (j : Nat) :
    (batchPart a chars)[addressOffset a + 2 + j]? =
      ((messageBody a chars).1 ++ List.replicate (16 - (messageBody a chars).2) Config.idle)[j]? := by
  rw [batchPart, List.getElem?_append_right (by simp), batchHead_length, Nat.add_sub_cancel_left]

theorem batchPart_getElem?_body (a : BitVec 21) (chars : List (BitVec 7)) {j : Nat}
    (hj : j < (messageBody a chars).1.length) :
    (batchPart a chars)[addressOffset a + 2 + j]? = (messageBody a chars).1[j]? := by
  rw [batchPart_getElem?_add_head, List.getElem?_append_left hj]

theorem batchPart_getElem?_end (a : BitVec 21) (chars : List (BitVec 7)) {j : Nat}
    (hj : (messageBody a chars).1.length ≤ j) (hlen : addressOffset a + 2 + j < (batchPart a chars).length) :
    (batchPart a chars)[addressOffset a + 2 + j]? = some Config.idle := by
  rw [batchPart_length] at hlen
  rw [batchPart_getElem?_add_head, List.getElem?_append_right hj, List.getElem?_replicate_of_lt (by omega)]

/-! ## The batches (R95, R169) -/

/-- A codeword that may stand in any place of a batch but SYNC's (R95). -/
def IsBatchWord (w : Word) : Prop := validCodeword w = true ∧ w ≠ Config.sync

theorem isBatchWord_idle : IsBatchWord Config.idle := ⟨validCodeword_idle, by decide⟩

theorem isBatchWord_address (a : BitVec 21) : IsBatchWord (encodeCodeword (addressPayload a)) :=
  ⟨validCodeword_encodeCodeword _, addressWord_ne_sync a⟩

theorem IsMessageWord.isBatchWord {w : Word} (h : IsMessageWord w) : IsBatchWord w := ⟨h.validCodeword, h.ne_sync⟩

theorem forall_mem_replicate_idle (n : Nat) : ∀ w ∈ List.replicate n Config.idle, IsBatchWord w := by
  intro w hw
  rw [List.eq_of_mem_replicate hw]
  exact isBatchWord_idle

/-- The first SYNC stands in place 16, before the place 0 of its batch. -/
theorem batchHead_onGrid (a : BitVec 21) : BatchGrid IsBatchWord 16 (batchHead a) := by
  have hoff := addressOffset_le a
  refine (batchGrid_sync rfl).append (batchGrid_of_within_batch (fun w hw => ?_) (by simp; omega))
  rcases List.mem_append.1 hw with hidle | haddress
  · exact forall_mem_replicate_idle _ w hidle
  · rw [List.mem_singleton.1 haddress]
    exact isBatchWord_address a

theorem batchPart_onGrid (a : BitVec 21) (chars : List (BitVec 7)) : BatchGrid IsBatchWord 16 (batchPart a chars) := by
  obtain ⟨hle, hpos, hbody⟩ := messageBody_onGrid a chars
  refine (batchHead_onGrid a).append (.append ?_ ?_)
  · exact (hbody.mono fun _ => IsMessageWord.isBatchWord).congr_start (by simp; omega)
  · exact batchGrid_of_within_batch (forall_mem_replicate_idle _) (by simp; omega)

/-- The words after the preamble fill whole batches. -/
theorem batchPart_length_eq_batches (a : BitVec 21) (chars : List (BitVec 7)) :
    ∃ b, 0 < b ∧ (batchPart a chars).length = 17 * b := by
  obtain ⟨hle, hpos, -⟩ := messageBody_onGrid a chars
  rw [batchPart_length]
  exact ⟨(addressOffset a + 1 + (messageBody a chars).1.length) / 17 + 1, by omega, by omega⟩

theorem BatchGrid.validCodeword {start : Nat} {ws : List Word} (h : BatchGrid IsBatchWord start ws) {i : Nat} {w : Word}
    (hi : ws[i]? = some w) : validCodeword w = true := by
  have hw := h i w hi
  split at hw
  · exact hw ▸ validCodeword_sync
  · exact hw.1

/-- Settles O50: the transmission is the preamble and a part that lies on the batch grid, which `pack` keeps from the address
word on; the words of each phase stand where the lengths of the phases before them put them. -/
theorem transmissionHasTheBatchLayout : Obligations.TransmissionHasTheBatchLayout := by
  unfold Obligations.TransmissionHasTheBatchLayout
  intro a chars off hoff
  obtain rfl : off = addressOffset a := hoff.trans (addressOffset_eq a).symm
  have hgrid := batchPart_onGrid a chars
  have hbatch {i : Nat} (hi : 18 ≤ i) := encodeTransmission_getElem?_batchPart a chars hi
  have hlen := encodeTransmission_length a chars
  have hlenParts := batchPart_length a chars
  have hoffLe := addressOffset_le a
  refine ⟨fun i hi => encodeTransmission_getElem?_preamble a chars hi, ?batches, ?valid, ?padding, by omega, ?address,
    ?body, ?idleEnd, (messageBody_onGrid a chars).1, by rw [hlen, hlenParts]; unfold messageBody; omega⟩
  case batches =>
    obtain ⟨b, hb, hlenBatches⟩ := batchPart_length_eq_batches a chars
    refine ⟨b, hb, by omega, fun j hj => ⟨?_, fun p hp => ?_⟩⟩
    · rw [hbatch (by omega)]
      exact hgrid.getElem?_sync (by omega) (by omega)
    · obtain ⟨w, hw, -, hne⟩ := hgrid.exists_getElem?_of_ne_sync_place (i := 19 + 17 * j + p - 18) (by omega) (by omega)
      exact ⟨w, (hbatch (by omega)).trans hw, hne⟩
  case valid =>
    intro i w hi hw
    exact hgrid.validCodeword ((hbatch hi).symm.trans hw)
  case padding =>
    intro i h19 hi
    rw [hbatch (by omega), show i - 18 = i - 19 + 1 by omega]
    exact batchPart_getElem?_padding a chars (by omega)
  case address =>
    rw [hbatch (by omega), show 19 + addressOffset a - 18 = addressOffset a + 1 by omega, ← addressPayload_eq]
    exact batchPart_getElem?_address a chars
  case body =>
    intro j hj
    rw [hbatch (by omega), show 20 + addressOffset a + j - 18 = addressOffset a + 2 + j by omega]
    exact batchPart_getElem?_body a chars hj
  case idleEnd =>
    intro i hi hlt
    have hj : (messageBody a chars).1.length ≤ i - (20 + addressOffset a) := Nat.le_sub_of_add_le' hi
    rw [hbatch (by omega), show i - 18 = addressOffset a + 2 + (i - (20 + addressOffset a)) by omega]
    exact batchPart_getElem?_end a chars hj (by omega)

end Sys2Proof.Machine
end

section
/-! PROOFS. How an outstanding command completes when its evaluation writes no element (R43): with a result, or with an error. -/

namespace Sys2Proof.Machine

section
variable {i : Instr} {s : State} {op a0 a1 a2 : Word}

/-- A successful completion with no element writes changes RES0, STATUS and the phase (R43). -/
theorem exec_of_eval_ok {res : Option Word} (h : Outstanding s op a0 a1 a2)
    (heval : evalOf i (s.inputs a0 a1 a2) = .ok res .none) :
    exec i s = .next { s with res0 := res.getD s.res0, status := 0x00000002#32, phase := .ready } := by
  obtain ⟨hmark, hphase⟩ := h
  rw [exec_eq_complete, complete_busy _ hmark hphase, heval]
  simp [State.applyResult, State.completeOk, Writes.none]

/-- A completion with an error changes STATUS and the phase alone (R221). -/
theorem exec_of_eval_err {c : ErrCode} (h : Outstanding s op a0 a1 a2)
    (heval : evalOf i (s.inputs a0 a1 a2) = .err c) :
    exec i s = .next { s with status := statusCompleted c.code, phase := .ready } := by
  obtain ⟨hmark, hphase⟩ := h
  rw [exec_eq_complete, complete_busy _ hmark hphase, heval]
  rfl

end

/-! ## The range check of a 21-bit operand (R223) -/

theorem operand21_of_le {a : Word} (h : a.toNat ≤ 0x1FFFFF) : operand21 a = some (a.setWidth 21) :=
  if_pos h

theorem operand21_of_gt {a : Word} (h : 0x1FFFFF < a.toNat) : operand21 a = none :=
  if_neg (Nat.not_le.2 h)

/-! ## NOP (R100) -/

/-- Settles O6: NOP's evaluation succeeds with no RES0 value and no element write. -/
theorem nopChangesOnlyStatus : Obligations.NopChangesOnlyStatus := by
  unfold Obligations.NopChangesOnlyStatus
  exact ⟨(decode_eq_instr_iff _ .nop).2 rfl, fun s op a0 a1 a2 h => exec_of_eval_ok (res := none) h rfl⟩

end Sys2Proof.Machine
end

section
/-! PROOFS. The population count and the parity bit (R103, R104). -/

namespace Sys2Proof.Machine

section
variable {w : Nat}

/-- A place counts in the XOR when it counts in exactly one of the two, so the XOR loses places in pairs. -/
theorem countP_xor_mod_two {α : Type} (p q : α → Bool) (l : List α) :
    l.countP (fun x => p x ^^ q x) % 2 = (l.countP p + l.countP q) % 2 := by
  induction l with
  | nil => rfl
  | cons x l ih =>
    simp only [List.countP_cons]
    cases p x <;> cases q x <;> simp <;> omega

theorem popcount_xor_mod_two (a b : BitVec w) : popcount (a ^^^ b) % 2 = (popcount a + popcount b) % 2 := by
  simp only [popcount, BitVec.getLsbD_xor]
  exact countP_xor_mod_two _ _ _

/-- One bit holds a number modulo 2. -/
theorem ofNat_one_eq_of_mod_two_eq {m n : Nat} (h : m % 2 = n % 2) : BitVec.ofNat 1 m = BitVec.ofNat 1 n := by
  apply BitVec.eq_of_toNat_eq
  simpa using h

@[simp] theorem toNat_parity (v : BitVec w) : (parity v).toNat = popcount v % 2 :=
  BitVec.toNat_ofNat ..

/-- Parity is linear over XOR, at every width (R104). -/
theorem parity_xor (a b : BitVec w) : parity (a ^^^ b) = parity a ^^^ parity b := by
  unfold parity
  rw [← BitVec.ofNat_xor]
  exact ofNat_one_eq_of_mod_two_eq ((popcount_xor_mod_two a b).trans Nat.xor_mod_two_eq.symm)

theorem parity_setWidth (v : BitVec w) : (parity v).setWidth 32 = if popcount v % 2 = 1 then 1#32 else 0#32 := by
  apply BitVec.eq_of_toNat_eq
  rcases Nat.mod_two_eq_zero_or_one (popcount v) with h | h <;> simp [h]

/-! ## A bit appended on the right -/

/-- A one-bit word as a count. -/
theorem toNat_bit : ∀ b : BitVec 1, b.toNat = if b.getLsbD 0 then 1 else 0 := by decide

theorem getLsbD_append_bit_succ (v : BitVec w) (b : BitVec 1) (k : Nat) : (v ++ b).getLsbD (k + 1) = v.getLsbD k :=
  (BitVec.getLsbD_append ..).trans (by simp)

theorem popcount_append_bit (v : BitVec w) (b : BitVec 1) : popcount (v ++ b) = popcount v + b.toNat := by
  have hlow : (v ++ b).getLsbD 0 = b.getLsbD 0 := BitVec.getLsbD_append
  have hhigh : (fun k => (v ++ b).getLsbD k) ∘ Nat.succ = fun k => v.getLsbD k :=
    funext (getLsbD_append_bit_succ v b)
  rw [popcount, List.range_succ_eq_map, List.countP_cons, List.countP_map, hhigh, hlow, toNat_bit, popcount]

/-- Appending the parity makes the population even (R104). -/
theorem popcount_append_parity_even (v : BitVec w) : popcount (v ++ parity v) % 2 = 0 := by
  rw [popcount_append_bit, toNat_parity]
  omega

end

/-- `(v << 1) | b` is `v` with the bit `b` appended. -/
theorem shiftLeft_or_eq_append (v : BitVec 31) (b : BitVec 1) :
    v.setWidth 32 <<< 1 ||| b.setWidth 32 = v ++ b := by
  apply BitVec.eq_of_getLsbD_eq
  intro k hk
  rw [BitVec.getLsbD_append]
  cases k with
  | zero => simp
  | succ k => simp [hk]

/-! ## The statements -/

/-- Settles O42: XOR loses counted places in pairs, and the appended bit adds the population modulo 2. -/
theorem parityIsLinearAndEvensThePopulation : Obligations.ParityIsLinearAndEvensThePopulation := by
  unfold Obligations.ParityIsLinearAndEvensThePopulation
  refine ⟨parity_xor, fun v => ?_⟩
  rw [shiftLeft_or_eq_append]
  exact popcount_append_parity_even v

/-- Settles O8: PARITY's evaluation succeeds with the parity bit, the population modulo 2. -/
theorem parityWritesOneForAnOddPopulation : Obligations.ParityWritesOneForAnOddPopulation := by
  unfold Obligations.ParityWritesOneForAnOddPopulation
  refine ⟨(decode_eq_instr_iff _ .parity).2 rfl, fun s op a0 a1 a2 h => ?_⟩
  have heval : evalOf .parity (s.inputs a0 a1 a2) = .ok (some ((parity a0).setWidth 32)) .none := rfl
  rw [exec_of_eval_ok h heval, parity_setWidth]
  rfl

end Sys2Proof.Machine
end

section
/-! PROOFS. The XOR of the values of a word's set bits: the sum that the basis expansion of R102 and the product by the generator
are written as. -/

namespace Sys2Proof.Machine

variable {w v u : Nat}

/-- The XOR of `f k` over the set bits `k < n` of `q`. -/
def xorSum (n : Nat) (q : BitVec w) (f : Nat → BitVec v) : BitVec v :=
  (List.range n).foldl (fun d k => if q.getLsbD k then d ^^^ f k else d) 0#v

theorem xorSum_zero (q : BitVec w) (f : Nat → BitVec v) : xorSum 0 q f = 0#v := rfl

theorem xorSum_succ (n : Nat) (q : BitVec w) (f : Nat → BitVec v) :
    xorSum (n + 1) q f = if q.getLsbD n then xorSum n q f ^^^ f n else xorSum n q f := by
  simp [xorSum, List.range_succ]

/-- A value XORed in on one side or the other is XORed into the whole, and one on both sides cancels. -/
theorem ite_xor_ite (p q : Bool) (a b c : BitVec v) : (if p then a ^^^ c else a) ^^^ (if q then b ^^^ c else b) =
    if p ^^ q then (a ^^^ b) ^^^ c else a ^^^ b := by
  have hcancel : (a ^^^ c) ^^^ (b ^^^ c) = a ^^^ b := by
    rw [BitVec.xor_comm b c, BitVec.xor_assoc, ← BitVec.xor_assoc c c b, BitVec.xor_self, BitVec.zero_xor]
  have hleft : (a ^^^ c) ^^^ b = (a ^^^ b) ^^^ c := by ac_rfl
  have hright : a ^^^ (b ^^^ c) = (a ^^^ b) ^^^ c := (BitVec.xor_assoc ..).symm
  cases p <;> cases q <;> simp [hcancel, hleft, hright]

/-- The sum is linear in the word: a bit set in both words adds its value twice. -/
theorem xorSum_xor (n : Nat) (p q : BitVec w) (f : Nat → BitVec v) :
    xorSum n (p ^^^ q) f = xorSum n p f ^^^ xorSum n q f := by
  induction n with
  | zero => simp [xorSum_zero]
  | succ n ih =>
    simp only [xorSum_succ, BitVec.getLsbD_xor, ih, ite_xor_ite]

/-- A map that is linear over XOR moves into the sum. -/
theorem map_xorSum {g : BitVec v → BitVec u} (hg : ∀ a b, g (a ^^^ b) = g a ^^^ g b) (n : Nat) (q : BitVec w)
    (f : Nat → BitVec v) : g (xorSum n q f) = xorSum n q (fun k => g (f k)) := by
  induction n with
  | zero => simpa [xorSum_zero] using hg 0#v 0#v
  | succ n ih =>
    simp only [xorSum_succ]
    split <;> simp [hg, ih]

theorem getLsbD_xorSum_basis (n : Nat) (q : BitVec w) (i : Nat) :
    (xorSum n q (fun k => 1#w <<< k)).getLsbD i = (decide (i < n) && q.getLsbD i) := by
  induction n with
  | zero => simp [xorSum_zero]
  | succ n ih =>
    have hbit : (1#w <<< n).getLsbD i = (decide (n < w) && decide (n = i)) := BitVec.getLsbD_twoPow n i
    rw [xorSum_succ]
    by_cases hi : i = n
    · subst hi
      by_cases hq : q.getLsbD i
      · rw [if_pos hq, BitVec.getLsbD_xor, ih, hbit, hq]
        simp [BitVec.lt_of_getLsbD hq]
      · rw [if_neg hq, ih, Bool.eq_false_of_not_eq_true hq]
        simp
    · have hlt : i < n + 1 ↔ i < n := by omega
      split <;> simp [ih, hbit, hlt, Ne.symm hi]

/-- A word is the XOR of its set bits. -/
theorem xorSum_basis (q : BitVec w) : xorSum w q (fun k => 1#w <<< k) = q := by
  apply BitVec.eq_of_getLsbD_eq
  intro i hi
  rw [getLsbD_xorSum_basis, decide_eq_true hi, Bool.true_and]

/-- The values of a map linear over XOR follow from its values on the single bits. -/
theorem linear_eq_xorSum {g : BitVec w → BitVec v} (hg : ∀ a b, g (a ^^^ b) = g a ^^^ g b) (q : BitVec w) :
    g q = xorSum w q (fun k => g (1#w <<< k)) := by
  rw [← map_xorSum hg, xorSum_basis]

end Sys2Proof.Machine
end

section
/-! PROOFS. The CRC (R101, R102): the long division is linear, takes away a multiple of the generator and leaves a degree
below 10. -/

namespace Sys2Proof.Machine

/-- Round `n` of the long division of R101, which clears dividend bit `n + 10`. -/
def crcRound (n : Nat) (d : BitVec 31) : BitVec 31 :=
  if d.getLsbD (n + 10) then d ^^^ (Config.gen <<< n) else d

theorem crcDivide_zero (d : BitVec 31) : crcDivide 0 d = d := rfl

theorem crcDivide_succ (n : Nat) (d : BitVec 31) : crcDivide (n + 1) d = crcDivide n (crcRound n d) := rfl

/-! ## Linearity (R102) -/

theorem crcRound_xor (n : Nat) (d e : BitVec 31) : crcRound n (d ^^^ e) = crcRound n d ^^^ crcRound n e := by
  simp only [crcRound, BitVec.getLsbD_xor, ite_xor_ite]

theorem crcDivide_xor (n : Nat) (d e : BitVec 31) : crcDivide n (d ^^^ e) = crcDivide n d ^^^ crcDivide n e := by
  induction n generalizing d e with
  | zero => rfl
  | succ n ih => rw [crcDivide_succ, crcRound_xor, ih, crcDivide_succ, crcDivide_succ]

theorem append_zero_xor (a b : BitVec 21) : (a ^^^ b) ++ 0#10 = (a ++ 0#10) ^^^ (b ++ 0#10) := by
  rw [BitVec.xor_append, BitVec.xor_zero]

theorem crc_xor (a b : BitVec 21) : crc (a ^^^ b) = crc a ^^^ crc b := by
  rw [crc, append_zero_xor, crcDivide_xor, BitVec.setWidth_xor, crc, crc]

/-- Settles O41: each round of the division is linear, and a linear map is the XOR of its values on the set bits. -/
theorem crcIsLinear : Obligations.CrcIsLinear := by
  unfold Obligations.CrcIsLinear
  exact ⟨crc_xor, linear_eq_xorSum crc_xor⟩

/-! ## The quotient: what the rounds take away is a multiple of the generator -/

theorem timesGen_eq_xorSum (q : BitVec 21) : Claims.timesGen q = xorSum 21 q (fun k => Config.gen <<< k) := rfl

theorem timesGen_xor (p q : BitVec 21) : Claims.timesGen (p ^^^ q) = Claims.timesGen p ^^^ Claims.timesGen q :=
  xorSum_xor ..

theorem timesGen_zero : Claims.timesGen 0#21 = 0#31 := by decide

theorem timesGen_basis {n : Nat} (hn : n < 21) : Claims.timesGen (1#21 <<< n) = Config.gen <<< n := by
  revert n
  decide

/-- A round takes away a multiple of the generator. -/
theorem exists_timesGen_xor_crcRound {n : Nat} (hn : n < 21) (d : BitVec 31) :
    ∃ q, d = Claims.timesGen q ^^^ crcRound n d := by
  unfold crcRound
  split
  · exact ⟨1#21 <<< n, by rw [timesGen_basis hn, BitVec.xor_comm, BitVec.xor_assoc, BitVec.xor_self, BitVec.xor_zero]⟩
  · exact ⟨0#21, by simp [timesGen_zero]⟩

theorem exists_timesGen_xor_crcDivide {n : Nat} (hn : n ≤ 21) (d : BitVec 31) :
    ∃ q, d = Claims.timesGen q ^^^ crcDivide n d := by
  induction n generalizing d with
  | zero => exact ⟨0#21, by simp [timesGen_zero, crcDivide_zero]⟩
  | succ n ih =>
    obtain ⟨p, hp⟩ := exists_timesGen_xor_crcRound (by omega : n < 21) d
    obtain ⟨q, hq⟩ := ih (by omega) (crcRound n d)
    exact ⟨p ^^^ q, by rw [timesGen_xor, BitVec.xor_assoc, crcDivide_succ, ← hq, ← hp]⟩

/-! ## The degree of what is left -/

/-- The generator has degree 10 (R6). -/
theorem gen_getLsbD_ten : Config.gen.getLsbD 10 = true := by decide

theorem gen_getLsbD_of_gt {i : Nat} (hi : 10 < i) : Config.gen.getLsbD i = false :=
  Nat.testBit_lt_two_pow (Nat.lt_of_lt_of_le (by decide : Config.gen.toNat < 2 ^ 11) (Nat.pow_le_pow_right (by decide) hi))

/-- The polynomial `d` has degree below `n`. -/
def DegreeBelow (n : Nat) (d : BitVec 31) : Prop := ∀ i, n ≤ i → d.getLsbD i = false

/-- A round lowers the degree: it clears the leading bit. -/
theorem degreeBelow_crcRound {n : Nat} {d : BitVec 31} (h : DegreeBelow (n + 11) d) :
    DegreeBelow (n + 10) (crcRound n d) := by
  intro i hi
  unfold crcRound
  rcases Nat.eq_or_lt_of_le hi with rfl | hgt
  · by_cases hlead : d.getLsbD (n + 10)
    · have hgen : (Config.gen <<< n).getLsbD (n + 10) = true := by
        rw [BitVec.getLsbD_shiftLeft, Nat.add_sub_cancel_left, gen_getLsbD_ten]
        simp [BitVec.lt_of_getLsbD hlead]
      rw [if_pos hlead, BitVec.getLsbD_xor, hlead, hgen, Bool.xor_self]
    · rw [if_neg hlead, Bool.eq_false_of_not_eq_true hlead]
  · have hhigh : (Config.gen <<< n).getLsbD i = false := by
      simp [BitVec.getLsbD_shiftLeft, gen_getLsbD_of_gt (show 10 < i - n by omega)]
    split <;> simp [h i hgt, hhigh]

theorem degreeBelow_crcDivide {n : Nat} {d : BitVec 31} (h : DegreeBelow (n + 10) d) :
    DegreeBelow 10 (crcDivide n d) := by
  induction n generalizing d with
  | zero => exact h
  | succ n ih => exact ih (degreeBelow_crcRound h)

theorem crc_setWidth (m : BitVec 21) : (crc m).setWidth 31 = crcDivide 21 (m ++ 0#10) := by
  have hdeg : DegreeBelow 10 (crcDivide 21 (m ++ 0#10)) :=
    degreeBelow_crcDivide fun i hi => BitVec.getLsbD_of_ge _ i hi
  apply BitVec.eq_of_getLsbD_eq
  intro i hi
  by_cases hlow : i < 10
  · simp [crc, hi, hlow]
  · simp [crc, hlow, hdeg i (by omega)]

/-- The CRC is a remainder of `message(x)·x^10` by the generator (R101). -/
theorem isRemainder_crc (m : BitVec 21) : Claims.IsRemainder m (crc m) := by
  obtain ⟨q, hq⟩ := exists_timesGen_xor_crcDivide (Nat.le_refl 21) (m ++ 0#10)
  exact ⟨q, by rw [crc_setWidth, ← hq]⟩

/-! ## The command -/

theorem evalCrc_of_le {x : Inputs} (h : x.a0.toNat ≤ 0x1FFFFF) :
    evalCrc x = .ok (some ((crc (x.a0.setWidth 21)).setWidth 32)) .none := by
  rw [evalCrc, operand21_of_le h]

theorem evalCrc_of_gt {x : Inputs} (h : 0x1FFFFF < x.a0.toNat) : evalCrc x = .err .argRange := by
  rw [evalCrc, operand21_of_gt h]

/-- Settles O7: the rounds of the division take away a multiple of the generator and leave a degree below 10; the range check
refuses what is no 21-bit message. -/
theorem crcWritesThePolynomialRemainder : Obligations.CrcWritesThePolynomialRemainder := by
  unfold Obligations.CrcWritesThePolynomialRemainder
  refine ⟨(decode_eq_instr_iff _ .crc).2 rfl, by decide +kernel, by decide +kernel, by decide +kernel, ?_⟩
  intro s op a0 a1 a2 h
  constructor
  · intro hle
    have heval : evalOf .crc (s.inputs a0 a1 a2) = .ok (some ((crc (a0.setWidth 21)).setWidth 32)) .none :=
      evalCrc_of_le hle
    exact ⟨crc (a0.setWidth 21), isRemainder_crc _, rfl, exec_of_eval_ok h heval⟩
  · intro hgt
    have heval : evalOf .crc (s.inputs a0 a1 a2) = .err .argRange := evalCrc_of_gt hgt
    rw [exec_of_eval_err h heval, statusCompleted_argRange]

end Sys2Proof.Machine
end

section
/-! PROOFS. A codeword's fields (R89, R120): what they hold, how they make up the word, and which words are
codewords (R121, R122). -/

namespace Sys2Proof.Machine

/-! ## The fields of a word -/

/-- A word is its payload, its CRC field and its parity bit (R89). -/
theorem codeword_fields_append (w : Word) :
    (codewordPayload w ++ codewordCrc w) ++ w.extractLsb' 0 1 = w := by
  rw [codewordPayload, codewordCrc, BitVec.extractLsb'_append_extractLsb'_eq_extractLsb' (show 11 = 1 + 10 from rfl),
    BitVec.extractLsb'_append_extractLsb'_eq_extractLsb' (show 1 = 0 + 1 from rfl), BitVec.extractLsb'_eq_self]

@[simp] theorem codewordCrc_encodeCodeword (p : BitVec 21) : codewordCrc (encodeCodeword p) = crc p := by
  apply BitVec.eq_of_getLsbD_eq
  intro i hi
  rw [codewordCrc, BitVec.getLsbD_extractLsb', Nat.add_comm 1 i, encodeCodeword_getLsbD_succ, payloadCrc,
    BitVec.getLsbD_append]
  simp [hi]

theorem popcount_encodeCodeword_even (p : BitVec 21) : popcount (encodeCodeword p) % 2 = 0 :=
  popcount_append_parity_even (payloadCrc p)

/-! ## Codewords form a linear code (R121) -/

theorem payloadCrc_xor (a b : BitVec 21) : payloadCrc (a ^^^ b) = payloadCrc a ^^^ payloadCrc b := by
  rw [payloadCrc, crc_xor, payloadCrc, payloadCrc, BitVec.xor_append]

theorem encodeCodeword_xor (a b : BitVec 21) :
    encodeCodeword (a ^^^ b) = encodeCodeword a ^^^ encodeCodeword b := by
  rw [encodeCodeword, payloadCrc_xor, parity_xor, encodeCodeword, encodeCodeword, BitVec.xor_append]

/-- The payload reads back, so no two payloads share a codeword. -/
theorem encodeCodeword_injective : Function.Injective encodeCodeword :=
  Function.LeftInverse.injective codewordPayload_encodeCodeword

/-- Settles O43: the payload and the CRC read back from their fields, the parity bit evens the population, and both the CRC
and the parity are linear. -/
theorem codewordCarriesPayloadAndCrcWithEvenPopulation :
    Obligations.CodewordCarriesPayloadAndCrcWithEvenPopulation := by
  unfold Obligations.CodewordCarriesPayloadAndCrcWithEvenPopulation
  exact ⟨fun p => ⟨popcount_encodeCodeword_even p, codewordPayload_encodeCodeword p, codewordCrc_encodeCodeword p⟩,
    fun _ _ h => encodeCodeword_injective h, encodeCodeword_xor⟩

/-! ## Valid codewords (R122) -/

/-- The parity bit is the only bit that, appended, makes the population even. -/
theorem popcount_append_bit_even_iff {n : Nat} (v : BitVec n) (b : BitVec 1) :
    popcount (v ++ b) % 2 = 0 ↔ b = parity v := by
  have hb := b.isLt
  rw [popcount_append_bit, ← BitVec.toNat_inj, toNat_parity]
  omega

/-- A right CRC field and an even population determine the word from its payload. -/
theorem eq_encodeCodeword_of_crc_of_even {w : Word} (hcrc : codewordCrc w = crc (codewordPayload w))
    (heven : popcount w % 2 = 0) : w = encodeCodeword (codewordPayload w) := by
  have hfields : payloadCrc (codewordPayload w) ++ w.extractLsb' 0 1 = w := by
    rw [payloadCrc, ← hcrc, codeword_fields_append]
  have hparity : w.extractLsb' 0 1 = parity (payloadCrc (codewordPayload w)) := by
    rwa [← popcount_append_bit_even_iff, hfields]
  rw [encodeCodeword, ← hparity, hfields]

theorem eq_encodeCodeword_iff (w : Word) : w = encodeCodeword (codewordPayload w) ↔
    codewordCrc w = crc (codewordPayload w) ∧ popcount w % 2 = 0 := by
  constructor
  · intro h
    generalize codewordPayload w = p at h
    subst h
    exact ⟨codewordCrc_encodeCodeword p, popcount_encodeCodeword_even p⟩
  · rintro ⟨hcrc, heven⟩
    exact eq_encodeCodeword_of_crc_of_even hcrc heven

theorem validCodeword_iff (w : Word) : validCodeword w = true ↔ w = encodeCodeword (codewordPayload w) :=
  beq_iff_eq

/-- Settles O44: with the payload and a right CRC given, an even population leaves only the parity bit for bit 0. -/
theorem validCodewordMeansRightCrcAndEvenPopulation : Obligations.ValidCodewordMeansRightCrcAndEvenPopulation := by
  unfold Obligations.ValidCodewordMeansRightCrcAndEvenPopulation
  exact fun w => ⟨validCodeword_iff w, eq_encodeCodeword_iff w⟩

/-! ## The command -/

theorem evalEnccw_of_le {x : Inputs} (h : x.a0.toNat ≤ 0x1FFFFF) :
    evalEnccw x = .ok (some (encodeCodeword (x.a0.setWidth 21))) .none := by
  rw [evalEnccw, operand21_of_le h]

theorem evalEnccw_of_gt {x : Inputs} (h : 0x1FFFFF < x.a0.toNat) : evalEnccw x = .err .argRange := by
  rw [evalEnccw, operand21_of_gt h]

/-- Settles O9: ENCCW's evaluation succeeds with the payload's codeword, and the range check refuses what is no 21-bit
payload. -/
theorem enccwWritesPayloadCrcParity : Obligations.EnccwWritesPayloadCrcParity := by
  unfold Obligations.EnccwWritesPayloadCrcParity
  refine ⟨(decode_eq_instr_iff _ .enccw).2 rfl, fun s op a0 a1 a2 h => ⟨fun hle => ?_, fun hgt => ?_⟩⟩
  · have heval : evalOf .enccw (s.inputs a0 a1 a2) = .ok (some (encodeCodeword (a0.setWidth 21))) .none :=
      evalEnccw_of_le hle
    exact exec_of_eval_ok h heval
  · have heval : evalOf .enccw (s.inputs a0 a1 a2) = .err .argRange := evalEnccw_of_gt hgt
    rw [exec_of_eval_err h heval, statusCompleted_argRange]

end Sys2Proof.Machine
end

section
/-! PROOFS. SYNC among `pack`'s words (R142): its places on the batch grid, and how many there are. The type bit tells it from
the message words. -/

namespace Sys2Proof.Machine

/-! ## The type bit tells message words from SYNC (R89, R90) -/

theorem encodeCodeword_getLsbD_add_eleven (p : BitVec 21) (k : Nat) :
    (encodeCodeword p).getLsbD (k + 11) = p.getLsbD k := by
  rw [encodeCodeword_getLsbD_succ p (k + 10), payloadCrc_getLsbD_add_ten]

theorem IsMessageWord.getLsbD_type {w : Word} (h : IsMessageWord w) : w.getLsbD 31 = true := by
  obtain ⟨chunk, rfl⟩ := h
  rw [encodeCodeword_getLsbD_add_eleven _ 20, messagePayload_getLsbD_flag]

theorem sync_getLsbD_type : Config.sync.getLsbD 31 = false := by decide

/-! ## SYNC words (R142) -/

section
variable {P : Word → Prop} {start : Nat}

theorem BatchGrid.eq_sync_iff {ws : List Word} (hP : ∀ w, P w → w ≠ Config.sync) (h : BatchGrid P start ws) {j : Nat}
    {w : Word} (hj : ws[j]? = some w) : w = Config.sync ↔ (start + j) % 17 = 16 := by
  have hw := h j w hj
  split at hw
  case isTrue hplace => exact iff_of_true hw hplace
  case isFalse hplace => exact iff_of_false (hP w hw) hplace

theorem BatchGrid.tail {w : Word} {ws : List Word} (h : BatchGrid P start (w :: ws)) : BatchGrid P (start + 1) ws := by
  intro j v hj
  rw [Nat.add_assoc, Nat.add_comm 1 j]
  exact h (j + 1) v hj

/-- One SYNC for each end of a batch between `start` and the place after the last word. -/
theorem BatchGrid.countP_sync {ws : List Word} (hP : ∀ w, P w → w ≠ Config.sync) (h : BatchGrid P start ws) :
    start / 17 + ws.countP (fun w => w == Config.sync) = (start + ws.length) / 17 := by
  induction ws generalizing start with
  | nil => rfl
  | cons w ws ih =>
    have hhead : w = Config.sync ↔ start % 17 = 16 := h.eq_sync_iff hP (j := 0) rfl
    have htail := ih h.tail
    rw [List.countP_cons, List.length_cons]
    by_cases hw : w = Config.sync
    · have := hhead.1 hw
      rw [if_pos (beq_iff_eq.2 hw)]
      omega
    · have := mt hhead.2 hw
      rw [if_neg (mt beq_iff_eq.1 hw)]
      omega

end

section
variable {offset : Nat} (ho : offset ≤ 15) (chars : List (BitVec 7))
include ho

theorem pack_batchGrid : BatchGrid IsMessageWord offset (pack offset chars).1 := by
  obtain ⟨-, -, hgrid⟩ := pack_onGrid ho chars
  exact hgrid

theorem pack_eq_sync_iff {j : Nat} {w : Word} (hj : (pack offset chars).1[j]? = some w) :
    w = Config.sync ↔ (offset + j) % 17 = 16 :=
  (pack_batchGrid ho chars).eq_sync_iff (fun _ => IsMessageWord.ne_sync) hj

theorem pack_isMessageWord_of_ne_sync {j : Nat} {w : Word} (hj : (pack offset chars).1[j]? = some w)
    (hw : w ≠ Config.sync) : IsMessageWord w := by
  have hgrid := pack_batchGrid ho chars j w hj
  rwa [if_neg (mt (pack_eq_sync_iff ho chars hj).2 hw)] at hgrid

/-- The type bit is set in every word of `pack` but SYNC. -/
theorem pack_getLsbD_type_iff {w : Word} (hw : w ∈ (pack offset chars).1) :
    w.getLsbD 31 = true ↔ w ≠ Config.sync := by
  obtain ⟨j, hj⟩ := List.mem_iff_getElem?.1 hw
  refine ⟨?_, fun hne => (pack_isMessageWord_of_ne_sync ho chars hj hne).getLsbD_type⟩
  rintro htype rfl
  rw [sync_getLsbD_type] at htype
  contradiction

theorem pack_countP_sync :
    (pack offset chars).1.countP (fun w => w == Config.sync) = (offset + (pack offset chars).1.length) / 17 := by
  have hcount := (pack_batchGrid ho chars).countP_sync fun _ => IsMessageWord.ne_sync
  rwa [Nat.div_eq_of_lt (by omega), Nat.zero_add] at hcount

end

/-- Settles O48: `pack` keeps the batch grid, whose SYNC places hold SYNC and whose other places hold message words. -/
theorem packInsertsSyncEverySixteenWords : Obligations.PackInsertsSyncEverySixteenWords := by
  unfold Obligations.PackInsertsSyncEverySixteenWords
  intro offset chars ho j w hj
  exact ⟨pack_eq_sync_iff ho chars hj, fun hw => (pack_isMessageWord_of_ne_sync ho chars hj hw).getLsbD_type⟩

end Sys2Proof.Machine
end

section
/-! PROOFS. `pack`'s message words (R141, R143): the packer emits the text's bit string in chunks of twenty bits. -/

namespace Sys2Proof.Machine

/-- A data bit of a message word is the bit of its chunk: chunk bit 19 stands in codeword bit 30 (R141). -/
theorem messageWord_getLsbD_data (acc : BitVec 20) {i : Nat} (hi : i < 20) :
    (encodeCodeword (messagePayload acc)).getLsbD (i + 11) = acc.getLsbD i := by
  have hflag : Config.flagMessage.getLsbD i = decide (20 = i) := BitVec.getLsbD_twoPow 20 i
  rw [encodeCodeword_getLsbD_add_eleven, messagePayload, BitVec.getLsbD_or, BitVec.getLsbD_setWidth, hflag,
    decide_eq_false (show ¬ 20 = i by omega), decide_eq_true (show i < 21 by omega), Bool.true_and, Bool.or_false]

/-! ## Chunks of a bit string -/

/-- Bits `20k … 20k+19` of the bit string `f`, the first of them in bit 19 (R141). -/
def chunk (f : Nat → Bool) (k : Nat) : BitVec 20 := BitVec.ofFnLE fun i : Fin 20 => f (20 * k + (19 - i))

theorem getLsbD_chunk (f : Nat → Bool) (k : Nat) {i : Nat} (hi : i < 20) :
    (chunk f k).getLsbD i = f (20 * k + (19 - i)) := by
  rw [chunk, BitVec.getLsbD_ofFnLE, dif_pos hi]

/-- Shifting in the next lower bit moves the window on a word down by one. -/
theorem shiftLeft_or_bit_eq_ushiftRight (v : BitVec 20) (m : Nat) :
    ((v >>> (m + 1)) <<< 1) ||| (BitVec.ofBool (v.getLsbD m)).setWidth 20 = v >>> m := by
  apply BitVec.eq_of_getLsbD_eq
  intro i hi
  cases i with
  | zero => simp
  | succ i =>
    have hplace : m + 1 + i = m + (i + 1) := by omega
    simp [hi, hplace]

/-- Zeros shifted out below come back from below. -/
theorem ushiftRight_shiftLeft_of_low_zero (v : BitVec 20) {m : Nat} (h : ∀ i, i < m → v.getLsbD i = false) :
    (v >>> m) <<< m = v := by
  apply BitVec.eq_of_getLsbD_eq
  intro i hi
  by_cases him : i < m
  · simp [him, h i him]
  · have hplace : m + (i - m) = i := by omega
    simp [hi, him, hplace]

/-! ## The packer's variables (R140) -/

/-- The message words among the words emitted. -/
def Packer.messages (p : Packer) : List Word := p.out.filter fun w => w.getLsbD 31

/-- Emitting adds the accumulator's word and perhaps a SYNC, which is no message word. -/
@[simp] theorem Packer.messages_emit (p : Packer) :
    p.emit.messages = p.messages ++ [encodeCodeword (messagePayload p.acc)] := by
  have hword : [encodeCodeword (messagePayload p.acc)].filter (fun w => w.getLsbD 31) =
      [encodeCodeword (messagePayload p.acc)] := List.filter_cons_of_pos (IsMessageWord.getLsbD_type ⟨p.acc, rfl⟩)
  have hsync : [Config.sync].filter (fun w => w.getLsbD 31) = [] := rfl
  unfold Packer.emit Packer.messages
  split <;> simp only [List.filter_append, hword, hsync, List.append_nil]

@[simp] theorem Packer.acc_emit (p : Packer) : p.emit.acc = 0#20 := by
  unfold Packer.emit
  split <;> rfl

@[simp] theorem Packer.nb_emit (p : Packer) : p.emit.nb = 0 := by
  unfold Packer.emit
  split <;> rfl

/-- The packer with one more bit in its accumulator. -/
def Packer.shiftIn (p : Packer) (b : Bool) : Packer :=
  { p with acc := (p.acc <<< 1) ||| (BitVec.ofBool b).setWidth 20, nb := p.nb + 1 }

theorem Packer.push_of_full {p : Packer} (b : Bool) (h : p.nb + 1 = 20) : p.push b = (p.shiftIn b).emit := if_pos h

theorem Packer.push_of_not_full {p : Packer} (b : Bool) (h : p.nb + 1 ≠ 20) : p.push b = p.shiftIn b := if_neg h

/-- The message word of a chunk. -/
def messageWordAt (f : Nat → Bool) (k : Nat) : Word := encodeCodeword (messagePayload (chunk f k))

/-- The packer has taken in the first `n` bits of `f`: the complete chunks are emitted, and the accumulator holds the top of the
chunk begun. -/
structure Packer.Packed (f : Nat → Bool) (n : Nat) (p : Packer) : Prop where
  messages_eq : p.messages = (List.range (n / 20)).map (messageWordAt f)
  acc_eq : p.acc = chunk f (n / 20) >>> (20 - n % 20)
  nb_eq : p.nb = n % 20

variable {f : Nat → Bool} {n : Nat} {p : Packer}

theorem Packer.Packed.acc_shiftIn (h : p.Packed f n) :
    (p.shiftIn (f n)).acc = chunk f (n / 20) >>> (19 - n % 20) := by
  have hbit : f n = (chunk f (n / 20)).getLsbD (19 - n % 20) := by
    rw [getLsbD_chunk f _ (by omega)]
    congr 1
    omega
  rw [Packer.shiftIn, h.acc_eq, hbit, show 20 - n % 20 = 19 - n % 20 + 1 by omega, shiftLeft_or_bit_eq_ushiftRight]

theorem Packer.Packed.push (h : p.Packed f n) : (p.push (f n)).Packed f (n + 1) := by
  have hacc := h.acc_shiftIn
  by_cases hfull : n % 20 + 1 = 20
  · have hnext : (n + 1) / 20 = n / 20 + 1 ∧ (n + 1) % 20 = 0 := by omega
    rw [show 19 - n % 20 = 0 by omega, BitVec.ushiftRight_zero] at hacc
    rw [Packer.push_of_full _ (by rwa [h.nb_eq])]
    refine ⟨?_, ?_, ?_⟩
    · rw [Packer.messages_emit, hacc, hnext.1, List.range_succ, List.map_append, ← h.messages_eq]
      rfl
    · rw [Packer.acc_emit, hnext.2, BitVec.ushiftRight_eq_zero (Nat.le_refl 20)]
    · rw [Packer.nb_emit, hnext.2]
  · have hnext : (n + 1) / 20 = n / 20 ∧ (n + 1) % 20 = n % 20 + 1 := by omega
    rw [Packer.push_of_not_full _ (by rwa [h.nb_eq])]
    refine ⟨?_, ?_, ?_⟩
    · rw [hnext.1]
      exact h.messages_eq
    · rw [hacc, hnext.1, hnext.2, show 20 - (n % 20 + 1) = 19 - n % 20 by omega]
    · rw [hnext.2, ← h.nb_eq]
      rfl

theorem Packer.packed_foldl_push (hp : p.Packed f 0) (n : Nat) :
    ((List.range n).foldl (fun q i => q.push (f i)) p).Packed f n := by
  induction n with
  | zero => exact hp
  | succ n ih =>
    rw [List.range_succ, List.foldl_append]
    exact ih.push

/-- The final partial word holds the last chunk, zeros past the end of the text (R143). -/
theorem Packer.Packed.messages_flush (h : p.Packed f n) (hend : ∀ x, n ≤ x → f x = false) :
    p.flush.messages = (List.range ((n + 19) / 20)).map (messageWordAt f) := by
  unfold Packer.flush
  rw [h.nb_eq, h.acc_eq]
  by_cases hpart : 0 < n % 20
  · have hpad : (chunk f (n / 20) >>> (20 - n % 20)) <<< (20 - n % 20) = chunk f (n / 20) :=
      ushiftRight_shiftLeft_of_low_zero _ fun i hi => by rw [getLsbD_chunk f _ (by omega), hend _ (by omega)]
    rw [if_pos hpart, Packer.messages_emit, show (n + 19) / 20 = n / 20 + 1 by omega, List.range_succ,
      List.map_append, ← h.messages_eq]
    exact congrArg (fun acc => p.messages ++ [encodeCodeword (messagePayload acc)]) hpad
  · rw [if_neg hpart, show (n + 19) / 20 = n / 20 by omega]
    exact h.messages_eq

/-! ## The text's bit string (R141) -/

theorem textBit_cons_of_lt (c : BitVec 7) (chars : List (BitVec 7)) {i : Nat} (hi : i < 7) :
    Claims.textBit (c :: chars) i = c.getLsbD i := by
  simp [Claims.textBit, Nat.div_eq_of_lt hi, Nat.mod_eq_of_lt hi]
  omega

theorem textBit_cons_add_seven (c : BitVec 7) (chars : List (BitVec 7)) (x : Nat) :
    Claims.textBit (c :: chars) (7 + x) = Claims.textBit chars x := by
  have hlt : 7 + x < 7 * (chars.length + 1) ↔ x < 7 * chars.length := by omega
  have hdiv : (7 + x) / 7 = x / 7 + 1 := by omega
  simp [Claims.textBit, hlt, hdiv]

theorem textBit_eq_false_of_le (chars : List (BitVec 7)) {x : Nat} (hx : 7 * chars.length ≤ x) :
    Claims.textBit chars x = false := by
  simp [Claims.textBit, hx]

theorem textBits_eq_map_textBit (chars : List (BitVec 7)) :
    textBits chars = (List.range (7 * chars.length)).map (Claims.textBit chars) := by
  induction chars with
  | nil => rfl
  | cons c chars ih =>
    have hfirst : charBitList c = (List.range 7).map (Claims.textBit (c :: chars)) :=
      List.map_congr_left fun i hi => (textBit_cons_of_lt c chars (List.mem_range.1 hi)).symm
    have hrest : Claims.textBit (c :: chars) ∘ (7 + ·) = Claims.textBit chars :=
      funext (textBit_cons_add_seven c chars)
    rw [List.length_cons, show 7 * (chars.length + 1) = 7 + 7 * chars.length by omega, List.range_add, List.map_append,
      ← hfirst, List.map_map, hrest, ← ih]
    rfl

/-- The message words of `pack` are the chunks of the text's bit string, in order (R141, R143). -/
theorem pack_messages (offset : Nat) (chars : List (BitVec 7)) :
    (pack offset chars).1.filter (fun w => w.getLsbD 31) =
      (List.range (Claims.messageCount chars.length)).map (messageWordAt (Claims.textBit chars)) := by
  have hstart : Packer.Packed (Claims.textBit chars) 0 { out := [], pos := offset, acc := 0#20, nb := 0 } :=
    ⟨rfl, (BitVec.ushiftRight_eq_zero (Nat.le_refl 20)).symm, rfl⟩
  have hpacked := Packer.packed_foldl_push hstart (7 * chars.length)
  rw [← List.foldl_map, ← textBits_eq_map_textBit] at hpacked
  exact hpacked.messages_flush fun x => textBit_eq_false_of_le chars

/-- Settles O47: the `k`-th message word carries the `k`-th chunk of the text's bit string, bit 19 in codeword bit 30. -/
theorem packPlacesEveryTextBit : Obligations.PackPlacesEveryTextBit := by
  unfold Obligations.PackPlacesEveryTextBit
  intro offset chars _
  rw [pack_messages]
  refine ⟨by simp, fun k hk => ⟨messageWordAt (Claims.textBit chars) k, by simp [hk], validCodeword_encodeCodeword _, ?_⟩⟩
  intro j hj
  rw [messageWordAt, show 30 - j = 19 - j + 11 by omega, messageWord_getLsbD_data _ (by omega),
    getLsbD_chunk _ _ (by omega), show 19 - (19 - j) = j by omega]

end Sys2Proof.Machine
end

section
/-! PROOFS. `pack`'s counts (R144): the message words are the text's chunks, the other words the grid's SYNC words. -/

namespace Sys2Proof.Machine

section
variable {offset : Nat} (ho : offset ≤ 15) (chars : List (BitVec 7))
include ho

theorem pack_countP_ne_sync :
    (pack offset chars).1.countP (fun w => w != Config.sync) = Claims.messageCount chars.length := by
  have htype : (pack offset chars).1.countP (fun w => w != Config.sync) =
      (pack offset chars).1.countP (fun w => w.getLsbD 31) :=
    List.countP_congr fun w hw => bne_iff_ne.trans (pack_getLsbD_type_iff ho chars hw).symm
  rw [htype, List.countP_eq_length_filter, pack_messages, List.length_map, List.length_range]

theorem pack_length_eq_messages_add_syncs : (pack offset chars).1.length =
    Claims.messageCount chars.length + (pack offset chars).1.countP (fun w => w == Config.sync) := by
  rw [← pack_countP_ne_sync ho chars, Nat.add_comm, List.length_eq_countP_add_countP (fun w => w == Config.sync)]
  congr 1
  exact List.countP_congr fun w _ => by simp

/-- Sixteen message words to each SYNC, from the offset on. -/
theorem pack_offset_add_messageCount : offset + Claims.messageCount chars.length =
    16 * (pack offset chars).1.countP (fun w => w == Config.sync) + (pack offset chars).2 := by
  obtain ⟨-, hpos, -⟩ := pack_onGrid ho chars
  have hsync := pack_countP_sync ho chars
  have hlen := pack_length_eq_messages_add_syncs ho chars
  omega

theorem pack_countP_sync_eq : (pack offset chars).1.countP (fun w => w == Config.sync) =
    (offset + Claims.messageCount chars.length) / 16 := by
  obtain ⟨hle, -, -⟩ := pack_onGrid ho chars
  have hsum := pack_offset_add_messageCount ho chars
  omega

theorem pack_pos_eq : (pack offset chars).2 = (offset + Claims.messageCount chars.length) % 16 := by
  obtain ⟨hle, -, -⟩ := pack_onGrid ho chars
  have hsum := pack_offset_add_messageCount ho chars
  omega

theorem pack_length : (pack offset chars).1.length = packCount offset chars.length := by
  rw [pack_length_eq_messages_add_syncs ho chars, pack_countP_sync_eq ho chars]
  rfl

end

/-- Settles O46: the message words are the text's chunks, the other words are the grid's SYNC words, sixteen message words
to each. -/
theorem packEmitsTheCountedWords : Obligations.PackEmitsTheCountedWords := by
  unfold Obligations.PackEmitsTheCountedWords
  exact fun offset chars ho => ⟨pack_countP_ne_sync ho chars, pack_countP_sync_eq ho chars, pack_length ho chars,
    pack_pos_eq ho chars⟩

end Sys2Proof.Machine
end

section
/-! PROOFS. ENCASCII (R145): its checks in order, the text it reads, and the words it writes; with what a completion with words
for WORD_BUF, and one with UNINIT_READ, leave (R43, R61). -/

namespace Sys2Proof.Machine

/-! ## Completions that write words, or fault -/

section
variable {i : Instr} {s : State} {op a0 a1 a2 : Word}

/-- A successful completion with words for WORD_BUF (R43). -/
theorem exec_of_eval_words {res : Word} {ws : List Word} (h : Outstanding s op a0 a1 a2)
    (heval : evalOf i (s.inputs a0 a1 a2) = .ok (some res) { words := ws, pcm := [] }) :
    exec i s = .next { s with
      wordBuf := Memory.overwrite s.wordBuf ws, res0 := res, status := 0x00000002#32, phase := .ready } := by
  obtain ⟨hmark, hphase⟩ := h
  rw [exec_eq_complete, complete_busy _ hmark hphase, heval]
  simp [State.applyResult, State.completeOk]

/-- A completion that reads an unwritten element sets the mark alone (R56, R229). -/
theorem exec_of_eval_uninitRead (h : Outstanding s op a0 a1 a2)
    (heval : evalOf i (s.inputs a0 a1 a2) = .uninitRead) :
    exec i s = .next { s with faultMark := some .uninitRead } := by
  obtain ⟨hmark, hphase⟩ := h
  rw [exec_eq_complete, complete_busy _ hmark hphase, heval]
  rfl

end

/-- The written elements read back in order (R61). -/
theorem Memory.read_overwrite_of_lt {α : Type} (m : Memory α) {vs : List α} {k : Nat} (hk : k < vs.length) :
    Memory.read (Memory.overwrite m vs) k = vs[k]? := by
  rw [Memory.read_overwrite, dif_pos hk, List.getElem?_eq_getElem hk]

/-- Elements past the written ones keep their contents (R61). -/
theorem Memory.read_overwrite_of_ge {α : Type} (m : Memory α) {vs : List α} {k : Nat} (hk : vs.length ≤ k) :
    Memory.read (Memory.overwrite m vs) k = Memory.read m k := by
  rw [Memory.read_overwrite, dif_neg (Nat.not_lt.2 hk)]

/-! ## The text read (R56, R146) -/

theorem Inputs.chars_eq_some {x : Inputs} {text : List Byte}
    (h : ∀ q, q < text.length → Memory.read x.textBuf q = text[q]?) :
    x.chars text.length = some (text.map charOf) := by
  have hread : Memory.readFrom x.textBuf 0 text.length = some text :=
    Memory.readFrom_eq_some _ _ _ fun q hq => by rw [Nat.zero_add, h q hq, List.getElem?_eq_getElem hq]
  rw [Inputs.chars, hread, Option.map_some]

theorem Inputs.chars_eq_none {x : Inputs} {n q : Nat} (hq : q < n) (h : Memory.read x.textBuf q = none) :
    x.chars n = none := by
  rw [Inputs.chars, Memory.readFrom_eq_none _ 0 n q hq (by rwa [Nat.zero_add]), Option.map_none]

/-! ## The evaluation, check by check -/

theorem operandOffset_of_le {a : Word} (h : a.toNat ≤ 15) : operandOffset a = some a.toNat :=
  if_pos h

theorem operandOffset_of_gt {a : Word} (h : 15 < a.toNat) : operandOffset a = none :=
  if_neg (Nat.not_le.2 h)

section
variable {x : Inputs}

theorem evalEncascii_of_gt (h : 15 < x.a0.toNat) : evalEncascii x = .err .argRange := by
  rw [evalEncascii, operandOffset_of_gt h]

theorem evalEncascii_of_overflow (h : x.a0.toNat ≤ 15)
    (hbig : x.params.textMax < x.a1.toNat ∨ x.params.wordMax < packCount x.a0.toNat x.a1.toNat) :
    evalEncascii x = .err .bufOverflow := by
  rw [evalEncascii, operandOffset_of_le h]
  by_cases htext : x.params.textMax < x.a1.toNat
  · exact if_pos htext
  · exact (if_neg htext).trans (if_pos (hbig.resolve_left htext))

section
variable (h : x.a0.toNat ≤ 15) (htext : x.a1.toNat ≤ x.params.textMax)
  (hword : packCount x.a0.toNat x.a1.toNat ≤ x.params.wordMax)
include h htext hword

theorem evalEncascii_of_unwritten (hchars : x.chars x.a1.toNat = none) : evalEncascii x = .uninitRead := by
  simp only [evalEncascii, operandOffset_of_le h, if_neg (Nat.not_lt.2 htext), if_neg (Nat.not_lt.2 hword), hchars]

theorem evalEncascii_of_chars {chars : List (BitVec 7)} (hchars : x.chars x.a1.toNat = some chars) :
    evalEncascii x = .ok (some (BitVec.ofNat 32 (packCount x.a0.toNat x.a1.toNat)))
      { words := (pack x.a0.toNat chars).1, pcm := [] } := by
  simp only [evalEncascii, operandOffset_of_le h, if_neg (Nat.not_lt.2 htext), if_neg (Nat.not_lt.2 hword), hchars]

end
end

/-- Settles O10: each check refuses what it names, and past the checks the completion writes `pack`'s words, as many as R144
counts. -/
theorem encasciiPacksTextIntoWords : Obligations.EncasciiPacksTextIntoWords := by
  unfold Obligations.EncasciiPacksTextIntoWords
  refine ⟨(decode_eq_instr_iff _ .encascii).2 rfl, ?_⟩
  intro s op a0 a1 a2 h n count hn hcount
  obtain rfl : count = packCount a0.toNat n := hcount
  subst hn
  refine ⟨fun hgt => ?range, fun hle hbig => ?overflow, fun hle htext hword ⟨q, hq, hnone⟩ => ?unwritten,
    fun text hlen hle htext hword hread => ?success⟩
  case range =>
    have heval : evalOf .encascii (s.inputs a0 a1 a2) = .err .argRange := evalEncascii_of_gt hgt
    rw [exec_of_eval_err h heval, statusCompleted_argRange]
  case overflow =>
    have heval : evalOf .encascii (s.inputs a0 a1 a2) = .err .bufOverflow := evalEncascii_of_overflow hle hbig
    rw [exec_of_eval_err h heval, statusCompleted_bufOverflow]
  case unwritten =>
    have hchars : (s.inputs a0 a1 a2).chars a1.toNat = none := Inputs.chars_eq_none hq hnone
    exact exec_of_eval_uninitRead h (evalEncascii_of_unwritten hle htext hword hchars)
  case success =>
    have hchars : (s.inputs a0 a1 a2).chars a1.toNat = some (text.map charOf) := by
      rw [← hlen] at hread ⊢
      exact Inputs.chars_eq_some hread
    have hlength : (pack a0.toNat (text.map charOf)).1.length = packCount a0.toNat a1.toNat := by
      rw [pack_length hle, List.length_map, hlen]
    refine ⟨_, exec_of_eval_words h (evalEncascii_of_chars hle htext hword hchars), rfl, fun k hk => ?_, fun k hk => ?_⟩
    · exact Memory.read_overwrite_of_lt _ (hlength.symm ▸ hk)
    · exact Memory.read_overwrite_of_ge _ (hlength.symm ▸ hk)

end Sys2Proof.Machine
end

section
/-! PROOFS. The transmission's length (R170, R172): R170's formula in the model's terms, the words counted, and the bound. -/

namespace Sys2Proof.Machine

/-- R170's formula over the address offset. -/
theorem txlen_eq (a : BitVec 21) (n : Nat) :
    txlen a n = 18 + 17 * ((addressOffset a + 1 + Claims.messageCount n) / 16 + 1) := rfl

/-- R170's formula over an operand word that holds the address. -/
theorem txlen_eq_transmissionLength {a : BitVec 21} {w : Word} (h : w.toNat = a.toNat) (n : Nat) :
    txlen a n = Claims.transmissionLength w n := by
  rw [txlen_eq, addressOffset_eq, Claims.transmissionLength, h]

theorem txlen_le (a : BitVec 21) {n : Nat} (hn : n < 2 ^ 32) : txlen a n ≤ 1597191005 := by
  have hoff := addressOffset_le a
  rw [txlen_eq, Claims.messageCount]
  omega

/-- The body's SYNC words and its last position are the quotient and the remainder by 16 of R170's `B`, and the IDLE words at the
end fill the last batch. -/
theorem encodeTransmission_length_eq_txlen (a : BitVec 21) (chars : List (BitVec 7)) :
    (encodeTransmission a chars).length = txlen a chars.length := by
  have ho : addressOffset a + 1 ≤ 15 := Nat.succ_le_succ (addressOffset_le a)
  obtain ⟨hpos, -, -⟩ := messageBody_onGrid a chars
  have hbody := pack_length_eq_messages_add_syncs ho chars
  have hbatches := pack_offset_add_messageCount ho chars
  rw [encodeTransmission_length, batchPart_length, txlen_eq]
  unfold messageBody at hpos ⊢
  omega

/-- Settles O52: the formula is R170's, and it grows with the address offset, at most 14, and the count. -/
theorem transmissionLengthIsBounded : Obligations.TransmissionLengthIsBounded := by
  unfold Obligations.TransmissionLengthIsBounded
  exact ⟨fun a n => ⟨txlen_eq a n, txlen_le a⟩, by decide⟩

/-- Settles O49: the phases' words add up to whole batches after the preamble, as many as R170's formula counts. -/
theorem transmissionHasTheCalculatedLength : Obligations.TransmissionHasTheCalculatedLength := by
  unfold Obligations.TransmissionHasTheCalculatedLength
  intro a chars
  have hword : (a.setWidth 32).toNat = a.toNat := BitVec.toNat_setWidth_of_le (by decide)
  exact ⟨encodeTransmission_length_eq_txlen a chars, txlen_eq_transmissionLength hword chars.length⟩

end Sys2Proof.Machine
end

section
/-! PROOFS. ADDROFF, TXLEN and ENCTX (R161, R168, R171): the address check they share, then each evaluation past it. -/

namespace Sys2Proof.Machine

/-- A completion with ARG_RANGE (R221, R223). -/
theorem exec_of_eval_argRange {i : Instr} {s : State} {op a0 a1 a2 : Word} (h : Outstanding s op a0 a1 a2)
    (heval : evalOf i (s.inputs a0 a1 a2) = .err .argRange) :
    exec i s = .next { s with status := 0x00000206#32, phase := .ready } := by
  rw [exec_of_eval_err h heval, statusCompleted_argRange]

/-! ## An operand word that holds a 21-bit address -/

theorem toNat_setWidth_address {a : Word} (h : a.toNat ≤ 0x1FFFFF) : (a.setWidth 21).toNat = a.toNat :=
  (BitVec.toNat_setWidth ..).trans (Nat.mod_eq_of_lt (Nat.lt_succ_of_le h))

theorem txlen_setWidth {a : Word} (h : a.toNat ≤ 0x1FFFFF) (n : Nat) :
    txlen (a.setWidth 21) n = Claims.transmissionLength a n :=
  txlen_eq_transmissionLength (toNat_setWidth_address h).symm n

theorem ofNat_addressOffset_setWidth {a : Word} (h : a.toNat ≤ 0x1FFFFF) :
    BitVec.ofNat 32 (addressOffset (a.setWidth 21)) = (a &&& 7#32) * 2#32 := by
  have hmask : a.toNat &&& 7 = a.toNat % 8 := Nat.and_two_pow_sub_one_eq_mod a.toNat 3
  apply BitVec.eq_of_toNat_eq
  simp [addressOffset_eq, toNat_setWidth_address h, hmask]

section
variable {x : Inputs}

/-! ## Above 21 bits (R223) -/

theorem evalAddroff_of_gt (h : 0x1FFFFF < x.a0.toNat) : evalAddroff x = .err .argRange := by
  rw [evalAddroff, operand21_of_gt h]

theorem evalTxlen_of_gt (h : 0x1FFFFF < x.a0.toNat) : evalTxlen x = .err .argRange := by
  rw [evalTxlen, operand21_of_gt h]

theorem evalEnctx_of_gt (h : 0x1FFFFF < x.a0.toNat) : evalEnctx x = .err .argRange := by
  rw [evalEnctx, operand21_of_gt h]

/-! ## A 21-bit address -/

section
variable (h : x.a0.toNat ≤ 0x1FFFFF)
include h

theorem evalAddroff_of_le : evalAddroff x = .ok (some ((x.a0 &&& 7#32) * 2#32)) .none := by
  rw [evalAddroff, operand21_of_le h]
  exact congrArg (fun r => Result.ok (some r) .none) (ofNat_addressOffset_setWidth h)

theorem evalTxlen_of_le :
    evalTxlen x = .ok (some (BitVec.ofNat 32 (Claims.transmissionLength x.a0 x.a1.toNat))) .none := by
  simp only [evalTxlen, operand21_of_le h, txlen_setWidth h]

theorem evalEnctx_of_overflow
    (hbig : x.params.textMax < x.a1.toNat ∨ x.params.wordMax < Claims.transmissionLength x.a0 x.a1.toNat) :
    evalEnctx x = .err .bufOverflow := by
  simp only [evalEnctx, operand21_of_le h, txlen_setWidth h]
  by_cases htext : x.params.textMax < x.a1.toNat
  · exact if_pos htext
  · exact (if_neg htext).trans (if_pos (hbig.resolve_left htext))

section
variable (htext : x.a1.toNat ≤ x.params.textMax)
  (hword : Claims.transmissionLength x.a0 x.a1.toNat ≤ x.params.wordMax)
include htext hword

theorem evalEnctx_of_unwritten (hchars : x.chars x.a1.toNat = none) : evalEnctx x = .uninitRead := by
  simp only [evalEnctx, operand21_of_le h, txlen_setWidth h, if_neg (Nat.not_lt.2 htext), if_neg (Nat.not_lt.2 hword),
    hchars]

theorem evalEnctx_of_chars {chars : List (BitVec 7)} (hchars : x.chars x.a1.toNat = some chars) :
    evalEnctx x = .ok (some (BitVec.ofNat 32 (Claims.transmissionLength x.a0 x.a1.toNat)))
      { words := encodeTransmission (x.a0.setWidth 21) chars, pcm := [] } := by
  simp only [evalEnctx, operand21_of_le h, txlen_setWidth h, if_neg (Nat.not_lt.2 htext), if_neg (Nat.not_lt.2 hword),
    hchars]

end
end
end

/-! ## The statements -/

/-- Settles O11: past the address check RES0 is the address offset, which the operand's low three bits give. -/
theorem addroffWritesTwiceTheFrame : Obligations.AddroffWritesTwiceTheFrame := by
  unfold Obligations.AddroffWritesTwiceTheFrame
  refine ⟨(decode_eq_instr_iff _ .addroff).2 rfl, fun s op a0 a1 a2 h => ⟨fun hle => ?_, fun hgt => ?_⟩⟩
  · exact exec_of_eval_ok (i := .addroff) h (evalAddroff_of_le (x := s.inputs a0 a1 a2) hle)
  · exact exec_of_eval_argRange h (evalAddroff_of_gt hgt)

/-- Settles O13: past the address check RES0 is R170's length, which fits for every 32-bit count. -/
theorem txlenWritesTheTransmissionLength : Obligations.TxlenWritesTheTransmissionLength := by
  unfold Obligations.TxlenWritesTheTransmissionLength
  refine ⟨(decode_eq_instr_iff _ .txlen).2 rfl, fun s op a0 a1 a2 h => ⟨fun hle => ⟨?_, ?_⟩, fun hgt => ?_⟩⟩
  · rw [← txlen_setWidth hle]
    exact Nat.lt_of_le_of_lt (txlen_le _ a1.isLt) (by decide)
  · exact exec_of_eval_ok (i := .txlen) h (evalTxlen_of_le (x := s.inputs a0 a1 a2) hle)
  · exact exec_of_eval_argRange h (evalTxlen_of_gt hgt)

/-- Settles O12: each check refuses what it names, and past the checks the completion writes the transmission's words, as many
as R170 counts. -/
theorem enctxBuildsTheTransmission : Obligations.EnctxBuildsTheTransmission := by
  unfold Obligations.EnctxBuildsTheTransmission
  refine ⟨(decode_eq_instr_iff _ .enctx).2 rfl, ?_⟩
  intro s op a0 a1 a2 h n count hn hcount
  subst hn hcount
  refine ⟨fun hgt => ?range, fun hle hbig => ?overflow, fun hle htext hword ⟨q, hq, hnone⟩ => ?unwritten,
    fun text hlen hle htext hword hread => ?success⟩
  case range => exact exec_of_eval_argRange h (evalEnctx_of_gt hgt)
  case overflow =>
    have heval : evalOf .enctx (s.inputs a0 a1 a2) = .err .bufOverflow := evalEnctx_of_overflow hle hbig
    rw [exec_of_eval_err h heval, statusCompleted_bufOverflow]
  case unwritten =>
    have hchars : (s.inputs a0 a1 a2).chars a1.toNat = none := Inputs.chars_eq_none hq hnone
    exact exec_of_eval_uninitRead h (evalEnctx_of_unwritten hle htext hword hchars)
  case success =>
    have hchars : (s.inputs a0 a1 a2).chars a1.toNat = some (text.map charOf) := by
      rw [← hlen] at hread ⊢
      exact Inputs.chars_eq_some hread
    have hlength : (encodeTransmission (a0.setWidth 21) (text.map charOf)).length =
        Claims.transmissionLength a0 a1.toNat := by
      rw [encodeTransmission_length_eq_txlen, List.length_map, hlen, txlen_setWidth hle]
    have heval := evalEnctx_of_chars (x := s.inputs a0 a1 a2) hle htext hword hchars
    refine ⟨_, exec_of_eval_words h heval, rfl, fun k hk => ?_, fun k hk => ?_⟩
    · exact Memory.read_overwrite_of_lt _ (hlength.symm ▸ hk)
    · exact Memory.read_overwrite_of_ge _ (hlength.symm ▸ hk)

end Sys2Proof.Machine
end

section
/-! PROOFS. The modulator's samples and bytes (R190–R197): the closed form of a sample, and where its two bytes stand. -/

namespace Sys2Proof.Machine

/-! ## The bit a sample takes (R192, R195, R197) -/

theorem pcmlen_div_two (sr baud wc : Nat) : pcmlen sr baud wc / 2 = wc * 32 * sr / baud :=
  Nat.mul_div_cancel _ Nat.two_pos

section
variable {sr baud i : Nat}

/-- The resampling index, cut into runs of `R` samples, is `(i · baud) div sr`, because `38400 = baud · R` (R197). -/
theorem resampledBit_eq (hdvd : Config.symbolRate % baud = 0) :
    i * Config.symbolRate / sr / repeatsPerBit baud = i * baud / sr := by
  have hrate : baud * repeatsPerBit baud = Config.symbolRate := Nat.mul_div_cancel' (Nat.dvd_of_mod_eq_zero hdvd)
  have hpos : 0 < repeatsPerBit baud := Nat.pos_of_mul_pos_left (hrate ▸ (by decide : 0 < Config.symbolRate))
  rw [Nat.div_div_eq_div_mul, ← hrate, ← Nat.mul_assoc, Nat.mul_div_mul_right _ _ hpos]

section
variable (hbaud : 0 < baud)
include hbaud

theorem resampledBit_lt {wc : Nat} (hi : i < pcmlen sr baud wc / 2) : i * baud / sr < wc * 32 := by
  rw [pcmlen_div_two] at hi
  have hnext : (i + 1) * baud ≤ wc * 32 * sr := Nat.mul_le_of_le_div _ _ _ hi
  apply Nat.div_lt_of_lt_mul
  rw [Nat.mul_comm sr]
  exact Nat.lt_of_lt_of_le (Nat.mul_lt_mul_of_pos_right i.lt_succ_self hbaud) hnext

/-- Every sample in range is the level of a bit of a word that exists (R197). -/
theorem outputSample_eq_level {words : List Word} (hdvd : Config.symbolRate % baud = 0)
    (hi : i < pcmlen sr baud words.length / 2) :
    ∃ w, words[i * baud / sr / 32]? = some w ∧
      outputSample words sr baud i = level (w.getLsbD (31 - i * baud / sr % 32)) := by
  have hword : i * baud / sr / 32 < words.length :=
    Nat.div_lt_of_lt_mul (Nat.mul_comm _ 32 ▸ resampledBit_lt hbaud hi)
  refine ⟨_, List.getElem?_eq_getElem hword, ?_⟩
  rw [outputSample, intermediate, resampledBit_eq hdvd, airBit, List.getD_eq_getElem _ _ hword]

end
end

/-- Settles O54: the sample's resampling index falls in the run of bit `(i · baud) div sr`, which some word holds. -/
theorem outputSampleHasTheClosedForm : Obligations.OutputSampleHasTheClosedForm := by
  unfold Obligations.OutputSampleHasTheClosedForm
  intro words sr baud i g _ hbaud hdvd hi hg
  subst hg
  exact outputSample_eq_level hbaud hdvd hi

/-! ## A sample's two bytes (R193, R196) -/

theorem level_lowByte (b : Bool) : (level b).extractLsb' 0 8 = if b then 0x01#8 else 0xFF#8 := by
  cases b <;> rfl

theorem level_highByte (b : Bool) : (level b).extractLsb' 8 8 = if b then 0xC0#8 else 0x3F#8 := by
  cases b <;> rfl

theorem getElem?_flatMap_sampleBytes_even (samples : List (BitVec 16)) (i : Nat) :
    (samples.flatMap sampleBytes)[2 * i]? = samples[i]?.map (·.extractLsb' 0 8) := by
  induction samples generalizing i with
  | nil => rfl
  | cons v samples ih =>
    cases i with
    | zero => rfl
    | succ i => exact ih i

theorem getElem?_flatMap_sampleBytes_odd (samples : List (BitVec 16)) (i : Nat) :
    (samples.flatMap sampleBytes)[2 * i + 1]? = samples[i]?.map (·.extractLsb' 8 8) := by
  induction samples generalizing i with
  | nil => rfl
  | cons v samples ih =>
    cases i with
    | zero => rfl
    | succ i => exact ih i

section
variable (words : List Word) (sr baud : Nat)

theorem pcmBytes_eq_flatMap_map : pcmBytes words sr baud =
    ((List.range (pcmlen sr baud words.length / 2)).map (outputSample words sr baud)).flatMap sampleBytes :=
  (List.flatMap_map ..).symm

theorem pcmBytes_length : (pcmBytes words sr baud).length = pcmlen sr baud words.length := by
  have hpair (v : BitVec 16) : (sampleBytes v).length = 2 := rfl
  simp [pcmBytes, hpair, pcmlen]

variable {words sr baud} {i : Nat} (hi : i < pcmlen sr baud words.length / 2)
include hi

theorem pcmBytes_getElem?_even : (pcmBytes words sr baud)[2 * i]? =
    some ((outputSample words sr baud i).extractLsb' 0 8) := by
  rw [pcmBytes_eq_flatMap_map, getElem?_flatMap_sampleBytes_even]
  simp [hi]

theorem pcmBytes_getElem?_odd : (pcmBytes words sr baud)[2 * i + 1]? =
    some ((outputSample words sr baud i).extractLsb' 8 8) := by
  rw [pcmBytes_eq_flatMap_map, getElem?_flatMap_sampleBytes_odd]
  simp [hi]

end

end Sys2Proof.Machine
end

section
/-! PROOFS. PCMLEN and PCMENC (R191, R198, R199): the checks, the words read, and the bytes written. -/

namespace Sys2Proof.Machine

/-! ## Completions that write PCM bytes, and the words read -/

/-- A successful completion with bytes for PCM_BUF (R43). -/
theorem exec_of_eval_pcm {i : Instr} {s : State} {op a0 a1 a2 res : Word} {bytes : List Byte}
    (h : Outstanding s op a0 a1 a2)
    (heval : evalOf i (s.inputs a0 a1 a2) = .ok (some res) { words := [], pcm := bytes }) :
    exec i s = .next { s with
      pcmBuf := Memory.overwrite s.pcmBuf bytes, res0 := res, status := 0x00000002#32, phase := .ready } := by
  obtain ⟨hmark, hphase⟩ := h
  rw [exec_eq_complete, complete_busy _ hmark hphase, heval]
  simp [State.applyResult, State.completeOk]

/-- A range with no unwritten element reads (R56). -/
theorem Memory.exists_readFrom_eq_some {α : Type} (m : Memory α) (i n : Nat)
    (h : ∀ q, q < n → Memory.read m (i + q) ≠ none) : ∃ vs, Memory.readFrom m i n = some vs := by
  induction n generalizing i with
  | zero => exact ⟨[], rfl⟩
  | succ n ih =>
    obtain ⟨v, hv⟩ := Option.ne_none_iff_exists'.1 (h 0 n.succ_pos)
    obtain ⟨vs, hvs⟩ := ih (i + 1) fun q hq => by
      rw [Nat.add_right_comm]
      exact h (q + 1) (Nat.succ_lt_succ hq)
    exact ⟨v :: vs, by simp_all [Memory.readFrom]⟩

section
variable {x : Inputs} {n : Nat}

theorem Inputs.words_eq_none {k : Nat} (hk : k < n) (h : Memory.read x.wordBuf k = none) : x.words n = none :=
  Memory.readFrom_eq_none _ 0 n k hk (by rwa [Nat.zero_add])

theorem Inputs.exists_words_eq_some (h : ∀ k, k < n → Memory.read x.wordBuf k ≠ none) :
    ∃ words, x.words n = some words :=
  Memory.exists_readFrom_eq_some _ 0 n fun q hq => by
    rw [Nat.zero_add]
    exact h q hq

theorem Inputs.length_of_words {words : List Word} (h : x.words n = some words) : words.length = n :=
  Memory.readFrom_length _ 0 n words h

theorem Inputs.read_of_words {words : List Word} (h : x.words n = some words) {k : Nat} {w : Word}
    (hk : words[k]? = some w) : Memory.read x.wordBuf k = some w := by
  obtain ⟨hlt, rfl⟩ := List.getElem?_eq_some_iff.1 hk
  rw [← Memory.readFrom_read _ 0 n words h k hlt, Nat.zero_add]

end

/-! ## PCMLEN's evaluation (R191) -/

/-- The PCM byte count of the operands (R190). -/
def Inputs.pcmCount (x : Inputs) : Nat := pcmlen x.a0.toNat x.a1.toNat x.a2.toNat

section
variable {x : Inputs}

theorem evalPcmlen_of_zero_rate (h : x.a0.toNat = 0 ∨ x.a1.toNat = 0) : evalPcmlen x = .err .rate :=
  if_pos h

section
variable (hsr : x.a0.toNat ≠ 0) (hbaud : x.a1.toNat ≠ 0)
include hsr hbaud

theorem evalPcmlen_of_gt (hbig : 0xFFFFFFFF < x.pcmCount) : evalPcmlen x = .err .arithOverflow :=
  (if_neg (not_or.2 ⟨hsr, hbaud⟩)).trans (if_pos hbig)

theorem evalPcmlen_of_le (hfits : x.pcmCount ≤ 0xFFFFFFFF) :
    evalPcmlen x = .ok (some (BitVec.ofNat 32 x.pcmCount)) .none :=
  (if_neg (not_or.2 ⟨hsr, hbaud⟩)).trans (if_neg (Nat.not_lt.2 hfits))

end

/-! ## PCMENC's evaluation, check by check (R198) -/

/-- The sample rate and the baud rate are in PCMENC's domain (R192, R224). -/
def Inputs.RatesOk (x : Inputs) : Prop := x.a0.toNat ≠ 0 ∧ x.a1.toNat ≠ 0 ∧ 38400 % x.a1.toNat = 0

/-- The operands pass PCMENC's checks (R198). -/
structure Inputs.PcmencOk (x : Inputs) : Prop where
  rates : x.RatesOk
  count : x.pcmCount ≤ 0xFFFFFFFF
  wordsFit : x.a2.toNat ≤ x.params.wordMax
  bytesFit : x.pcmCount ≤ x.params.pcmMax

theorem Inputs.RatesOk.not_refused (h : x.RatesOk) :
    ¬ (x.a0.toNat = 0 ∨ x.a1.toNat = 0 ∨ Config.symbolRate % x.a1.toNat ≠ 0) := by
  obtain ⟨hsr, hbaud, hdvd⟩ := h
  exact not_or.2 ⟨hsr, not_or.2 ⟨hbaud, not_not.2 hdvd⟩⟩

theorem evalPcmenc_of_bad_rate (h : x.a0.toNat = 0 ∨ x.a1.toNat = 0 ∨ 38400 % x.a1.toNat ≠ 0) :
    evalPcmenc x = .err .rate :=
  if_pos h

theorem evalPcmenc_of_gt (h : x.RatesOk) (hbig : 0xFFFFFFFF < x.pcmCount) : evalPcmenc x = .err .arithOverflow :=
  (if_neg h.not_refused).trans (if_pos hbig)

theorem evalPcmenc_of_overflow (h : x.RatesOk) (hcount : x.pcmCount ≤ 0xFFFFFFFF)
    (hbig : x.params.wordMax < x.a2.toNat ∨ x.params.pcmMax < x.pcmCount) : evalPcmenc x = .err .bufOverflow := by
  refine (if_neg h.not_refused).trans ((if_neg (Nat.not_lt.2 hcount)).trans ?_)
  by_cases hwords : x.params.wordMax < x.a2.toNat
  · exact if_pos hwords
  · exact (if_neg hwords).trans (if_pos (hbig.resolve_left hwords))

/-- Past the checks only the words read decide (R56, R198). -/
theorem Inputs.PcmencOk.evalPcmenc_eq (h : x.PcmencOk) :
    evalPcmenc x = (x.words x.a2.toNat).elim .uninitRead fun words =>
      .ok (some (BitVec.ofNat 32 x.pcmCount)) { words := [], pcm := pcmBytes words x.a0.toNat x.a1.toNat } := by
  obtain ⟨hrates, hcount, hwordsFit, hbytesFit⟩ := h
  refine (if_neg hrates.not_refused).trans ((if_neg (Nat.not_lt.2 hcount)).trans
    ((if_neg (Nat.not_lt.2 hwordsFit)).trans ((if_neg (Nat.not_lt.2 hbytesFit)).trans ?_)))
  cases x.words x.a2.toNat <;> rfl

theorem Inputs.PcmencOk.evalPcmenc_of_unwritten (h : x.PcmencOk) (hwords : x.words x.a2.toNat = none) :
    evalPcmenc x = .uninitRead := by
  rw [h.evalPcmenc_eq, hwords, Option.elim_none]

theorem Inputs.PcmencOk.evalPcmenc_of_words (h : x.PcmencOk) {words : List Word}
    (hwords : x.words x.a2.toNat = some words) :
    evalPcmenc x = .ok (some (BitVec.ofNat 32 x.pcmCount))
      { words := [], pcm := pcmBytes words x.a0.toNat x.a1.toNat } := by
  rw [h.evalPcmenc_eq, hwords, Option.elim_some]

/-- A PCMENC that succeeds has passed every check and read every word (R198). -/
theorem evalPcmenc_eq_ok {res : Option Word} {w : Writes} (h : evalPcmenc x = .ok res w) :
    x.PcmencOk ∧ ∃ words, x.words x.a2.toNat = some words := by
  by_cases hrates : x.RatesOk
  case neg =>
    have hbad : x.a0.toNat = 0 ∨ x.a1.toNat = 0 ∨ 38400 % x.a1.toNat ≠ 0 := by
      unfold Inputs.RatesOk at hrates
      tauto
    rw [evalPcmenc_of_bad_rate hbad] at h
    cases h
  by_cases hcount : x.pcmCount ≤ 0xFFFFFFFF
  case neg =>
    rw [evalPcmenc_of_gt hrates (Nat.not_le.1 hcount)] at h
    cases h
  by_cases hfit : x.a2.toNat ≤ x.params.wordMax ∧ x.pcmCount ≤ x.params.pcmMax
  case neg =>
    rw [evalPcmenc_of_overflow hrates hcount (by omega)] at h
    cases h
  have hok : x.PcmencOk := ⟨hrates, hcount, hfit.1, hfit.2⟩
  cases hwords : x.words x.a2.toNat with
  | none =>
    rw [hok.evalPcmenc_of_unwritten hwords] at h
    cases h
  | some words => exact ⟨hok, words, rfl⟩

end

/-! ## What a success writes, and what it comes from -/

/-- The two bytes of sample `i`, once PCMENC's bytes are in PCM_BUF, are those of the level of the bit its resampled index
falls in, and the word that holds the bit was read from WORD_BUF (R194–R196). -/
theorem read_overwrite_pcmBytes {x : Inputs} (hrates : x.RatesOk) {words : List Word}
    (hwords : x.words x.a2.toNat = some words) (m : Memory Byte) {i g : Nat} (hi : i < x.pcmCount / 2)
    (hg : g = i * 38400 / x.a0.toNat / (38400 / x.a1.toNat)) :
    ∃ w, Memory.read x.wordBuf (g / 32) = some w ∧
      Memory.read (Memory.overwrite m (pcmBytes words x.a0.toNat x.a1.toNat)) (2 * i) =
        some (if w.getLsbD (31 - g % 32) then 0x01#8 else 0xFF#8) ∧
      Memory.read (Memory.overwrite m (pcmBytes words x.a0.toNat x.a1.toNat)) (2 * i + 1) =
        some (if w.getLsbD (31 - g % 32) then 0xC0#8 else 0x3F#8) := by
  obtain ⟨-, hne, hdvd⟩ := hrates
  have hbaud := Nat.pos_of_ne_zero hne
  obtain rfl : g = i * x.a1.toNat / x.a0.toNat := hg.trans (resampledBit_eq hdvd)
  rw [Inputs.pcmCount, ← Inputs.length_of_words hwords] at hi
  obtain ⟨w, hw, hsample⟩ := outputSample_eq_level hbaud hdvd hi
  have hlength := pcmBytes_length words x.a0.toNat x.a1.toNat
  refine ⟨w, Inputs.read_of_words hwords hw, ?_, ?_⟩
  · rw [Memory.read_overwrite_of_lt _ (by omega), pcmBytes_getElem?_even hi, hsample, level_lowByte]
  · rw [Memory.read_overwrite_of_lt _ (by omega), pcmBytes_getElem?_odd hi, hsample, level_highByte]

/-- No error completes with the STATUS of a success (R26, R43). -/
theorem statusCompleted_code_ne_ok (c : ErrCode) : statusCompleted c.code ≠ 0x00000002#32 := by
  cases c <;> decide

/-- A completion that leaves no mark and a success's STATUS comes from a successful evaluation (R43). -/
theorem eval_eq_ok_of_exec {i : Instr} {s t : State} {op a0 a1 a2 : Word} (h : Outstanding s op a0 a1 a2)
    (hexec : exec i s = .next t) (hstatus : t.status = 0x00000002#32) (hmark : t.faultMark = none) :
    ∃ res w, evalOf i (s.inputs a0 a1 a2) = .ok res w := by
  cases heval : evalOf i (s.inputs a0 a1 a2) with
  | ok res w => exact ⟨res, w, rfl⟩
  | err c =>
    rw [exec_of_eval_err h heval] at hexec
    cases hexec
    exact absurd hstatus (statusCompleted_code_ne_ok c)
  | uninitRead =>
    rw [exec_of_eval_uninitRead h heval] at hexec
    cases hexec
    cases hmark

/-! ## The statements -/

/-- Settles O14: a zero rate and a count above 32 bits are refused in that order, and RES0 is the count otherwise. -/
theorem pcmlenWritesTheByteCount : Obligations.PcmlenWritesTheByteCount := by
  unfold Obligations.PcmlenWritesTheByteCount
  refine ⟨(decode_eq_instr_iff _ .pcmlen).2 rfl, fun s op a0 a1 a2 h => ⟨fun hzero => ?rate, fun hsr hbaud hbig => ?arith,
    fun hsr hbaud hfits => ?success⟩⟩
  case rate =>
    have heval : evalOf .pcmlen (s.inputs a0 a1 a2) = .err .rate := evalPcmlen_of_zero_rate hzero
    rw [exec_of_eval_err h heval, statusCompleted_rate]
  case arith =>
    have heval : evalOf .pcmlen (s.inputs a0 a1 a2) = .err .arithOverflow := evalPcmlen_of_gt hsr hbaud hbig
    rw [exec_of_eval_err h heval, statusCompleted_arithOverflow]
  case success =>
    exact exec_of_eval_ok (i := .pcmlen) h (evalPcmlen_of_le (x := s.inputs a0 a1 a2) hsr hbaud hfits)

/-- Settles O15: each check refuses what it names, and past the checks the completion writes the samples' bytes, as many as
R190 counts. -/
theorem pcmencModulatesWordsIntoBytes : Obligations.PcmencModulatesWordsIntoBytes := by
  unfold Obligations.PcmencModulatesWordsIntoBytes
  refine ⟨(decode_eq_instr_iff _ .pcmenc).2 rfl, ?_⟩
  intro s op a0 a1 a2 h sr baud wc b hsr hbaud hwc hb
  subst hsr hbaud hwc
  obtain rfl : b = (s.inputs a0 a1 a2).pcmCount := hb
  refine ⟨fun hbad => ?rate, fun hsr hbaud hdvd hbig => ?arith, fun hsr hbaud hdvd hcount hbig => ?overflow,
    fun hsr hbaud hdvd hcount hwc hpcm ⟨k, hk, hnone⟩ => ?unwritten,
    fun hsr hbaud hdvd hcount hwc hpcm hwritten => ?success⟩
  case rate =>
    have heval : evalOf .pcmenc (s.inputs a0 a1 a2) = .err .rate := evalPcmenc_of_bad_rate hbad
    rw [exec_of_eval_err h heval, statusCompleted_rate]
  case arith =>
    have heval : evalOf .pcmenc (s.inputs a0 a1 a2) = .err .arithOverflow :=
      evalPcmenc_of_gt ⟨hsr, hbaud, hdvd⟩ hbig
    rw [exec_of_eval_err h heval, statusCompleted_arithOverflow]
  case overflow =>
    have heval : evalOf .pcmenc (s.inputs a0 a1 a2) = .err .bufOverflow :=
      evalPcmenc_of_overflow ⟨hsr, hbaud, hdvd⟩ hcount hbig
    rw [exec_of_eval_err h heval, statusCompleted_bufOverflow]
  case unwritten =>
    have hok : (s.inputs a0 a1 a2).PcmencOk := ⟨⟨hsr, hbaud, hdvd⟩, hcount, hwc, hpcm⟩
    exact exec_of_eval_uninitRead h (hok.evalPcmenc_of_unwritten (Inputs.words_eq_none hk hnone))
  case success =>
    have hok : (s.inputs a0 a1 a2).PcmencOk := ⟨⟨hsr, hbaud, hdvd⟩, hcount, hwc, hpcm⟩
    obtain ⟨words, hwords⟩ : ∃ words, (s.inputs a0 a1 a2).words a2.toNat = some words :=
      Inputs.exists_words_eq_some hwritten
    have hlength : (pcmBytes words a0.toNat a1.toNat).length = (s.inputs a0 a1 a2).pcmCount := by
      rw [pcmBytes_length, Inputs.length_of_words hwords]
      rfl
    refine ⟨_, exec_of_eval_pcm h (hok.evalPcmenc_of_words hwords), rfl, fun i g hi hg => ?_, fun k hk => ?_⟩
    · exact read_overwrite_pcmBytes hok.rates hwords _ hi hg
    · exact Memory.read_overwrite_of_ge _ (hlength.symm ▸ hk)

/-- Settles O55: operands that pass PCMENC's checks pass PCMLEN's, both counts are `pcmlen`, and the count fits 32 bits. -/
theorem pcmencCountEqualsPcmlenCount : Obligations.PcmencCountEqualsPcmlenCount := by
  unfold Obligations.PcmencCountEqualsPcmlenCount
  intro s t u op a0 a1 a2 h ht hstatus hmark hu
  obtain ⟨res, w, heval⟩ := eval_eq_ok_of_exec h ht hstatus hmark
  obtain ⟨hok, words, hwords⟩ := evalPcmenc_eq_ok heval
  obtain ⟨hsr, hbaud, -⟩ := hok.rates
  have hpcmenc := exec_of_eval_pcm (i := .pcmenc) h (hok.evalPcmenc_of_words hwords)
  have hpcmlen := exec_of_eval_ok (i := .pcmlen) h (evalPcmlen_of_le hsr hbaud hok.count)
  obtain rfl := Host.Outcome.next.inj (ht.symm.trans hpcmenc)
  obtain rfl := Host.Outcome.next.inj (hu.symm.trans hpcmlen)
  refine ⟨rfl, rfl, words, rfl, ?_⟩
  rw [pcmBytes_length, Inputs.length_of_words hwords]
  exact (Nat.mod_eq_of_lt (Nat.lt_succ_of_le hok.count)).symm

end Sys2Proof.Machine
end

section
/-! PROOFS. A command outstanding: an illegal word completes with ILLEGAL_CMD (R222), and the Host may only read STATUS
(R239). -/

namespace Sys2Proof.Machine

/-! ## The Core's turn on an illegal word (R222) -/

/-- An illegal word completes with an error, and no operand is looked at (R83, R222). -/
theorem coreTurn_of_decode_illegal {s : State} {op a0 a1 a2 : Word} {why : Illegal} (h : Outstanding s op a0 a1 a2)
    (hdecode : decode op = .illegal why) : coreTurn s = .next (s.completeErr .illegalCmd) := by
  obtain ⟨hmark, hphase⟩ := h
  have hturn : coreTurn s = completeIllegal s := by simp only [coreTurn, hphase, hdecode]
  rw [hturn, completeIllegal, complete_busy _ hmark hphase, State.applyResult]

/-- Settles O4: such a word decodes to no command, so the Core's turn completes it with ILLEGAL_CMD. -/
theorem illegalCommandWordCompletesWithIllegalCmd : Obligations.IllegalCommandWordCompletesWithIllegalCmd := by
  unfold Obligations.IllegalCommandWordCompletesWithIllegalCmd
  intro s op a0 a1 a2 rest ⟨hmark, hphase⟩ hsched hfields
  obtain ⟨why, hdecode⟩ : ∃ why, decode op = .illegal why := (decode_illegal_iff_fields op).2 hfields
  have hout : Outstanding { s with schedule := rest } op a0 a1 a2 := ⟨hmark, hphase⟩
  rw [step_core hmark hsched, coreTurn_of_decode_illegal hout hdecode, State.completeErr, statusCompleted_illegalCmd]

/-! ## Host accesses while Busy (R239) -/

theorem State.isBusy_eq_true {s : State} {op a0 a1 a2 : Word} (hp : s.phase = .busy op a0 a1 a2) : s.isBusy = true := by
  simp [State.isBusy, hp]

/-- An access reaches a register at the register's offset alone (R21, R51). -/
theorem toNat_eq_regOffset_of_accessTarget {p : Config.Params} {off : Offset} {size : Nat} {r : Reg}
    (h : accessTarget p off size = some (.reg r)) : off.toNat = regOffset r := by
  obtain ⟨-, -, hmap⟩ := accessTarget_some h
  rcases mapOffset_some hmap with ⟨r', ht, ho⟩ | ⟨i, ht, -⟩ | ⟨k, ht, -⟩ | ⟨i, ht, -⟩
  · cases ht
    exact ho
  all_goals cases ht

section
variable {s : State} {off : Offset} {size : Nat} {t : Target}

theorem hostRead_busy (hb : s.isBusy = true) (ht : accessTarget s.params off size = some t) (hne : t ≠ .reg .status) :
    hostRead off size s = s.markFault .hostProtocol := by
  simp [hostRead, ht, hb, hne]

/-- A read of STATUS is answered in every phase (R55). -/
theorem hostRead_status (ht : accessTarget s.params off size = some (.reg .status)) :
    hostRead off size s = s.returnRead s.status := by
  simp [hostRead, ht, State.targetValue, State.reg]

theorem hostWrite_busy (v : Word) (hb : s.isBusy = true) (ht : writeTargetOf s.params off size = some t) :
    hostWrite off size v s = s.markFault .hostProtocol := by
  simp [hostWrite, ht, hb]

end

/-- Settles O27: an access that is no bus fault has a target, and while Busy only the target STATUS, which stands at offset 4
alone, is answered. -/
theorem busyCoreAllowsOnlyStatusReads : Obligations.BusyCoreAllowsOnlyStatusReads := by
  unfold Obligations.BusyCoreAllowsOnlyStatusReads
  intro s op a0 a1 a2 off v rest ⟨hmark, hphase⟩
  have hbusy : State.isBusy { s with schedule := rest } = true := State.isBusy_eq_true hphase
  refine ⟨fun hsched hrule => ?write, fun hsched hrule hoff => ?read, fun hsched => ?status⟩
  case write =>
    rw [← writeTargetOf_eq_none_iff] at hrule
    obtain ⟨t, ht⟩ := Option.ne_none_iff_exists'.1 hrule
    rw [step_write hmark hsched, hostWrite_busy v hbusy ht, State.markFault]
  case read =>
    rw [← accessTarget_eq_none_iff] at hrule
    obtain ⟨t, ht⟩ := Option.ne_none_iff_exists'.1 hrule
    have hne : t ≠ .reg .status := by
      rintro rfl
      exact hoff (toNat_eq_regOffset_of_accessTarget ht)
    rw [step_read hmark hsched, hostRead_busy hbusy ht hne, State.markFault]
  case status =>
    have ht : accessTarget s.params 0x000004#21 4 = some (.reg .status) := accessTarget_reg s.params rfl
    rw [step_read hmark hsched, hostRead_status (s := { s with schedule := rest }) ht, State.returnRead]

end Sys2Proof.Machine
end

section
/-! PROOFS. One step, said once: the list of everything a step that answers a next state can do. Every invariant below is a case
analysis on this list. -/

namespace Sys2Proof.Machine

/-- The Core moves, with `q` left on the schedule: it is its turn, or the schedule is empty (log 2). -/
def CoreMoves (s : State) (q : List Event) : Prop := (s.schedule = [] ∧ q = []) ∨ s.schedule = .core :: q

/-- A host access reaches a target, or none (R58). -/
def Event.Reaches (p : Config.Params) : Event → Option Target → Prop
  | .read off size, t => accessTarget p off size = t
  | .write off size _, t => writeTargetOf p off size = t
  | .core, _ => False
  | .reset, _ => False

/-- A step takes `s` to the indexed state. -/
inductive StepTo (s : State) : State → Prop where
  | reset {rest : List Event} (hs : s.schedule = .reset :: rest) : StepTo s (s.resetEvent rest)
  | pass {q : List Event} (hq : CoreMoves s q) (hm : s.faultMark = none) (hp : s.phase = .ready) :
      StepTo s { s with schedule := q }
  | complete {q : List Event} {op a0 a1 a2 : Word} (hq : CoreMoves s q) (h : Outstanding s op a0 a1 a2) :
      StepTo s (State.applyResult { s with schedule := q } (Claims.outcome s op a0 a1 a2))
  | busFault {e : Event} {rest : List Event} (h : Turn s e rest) (ht : e.Reaches s.params none) :
      StepTo s (State.markFault { s with schedule := rest } .busFault)
  | protocolFault {e : Event} {rest : List Event} {t : Target} (h : Turn s e rest) (ht : e.Reaches s.params (some t))
      (hb : s.isBusy = true) : StepTo s (State.markFault { s with schedule := rest } .hostProtocol)
  | read {off : Offset} {size : Nat} {rest : List Event} {t : Target} (h : Turn s (.read off size) rest)
      (ht : accessTarget s.params off size = some t) (hok : s.isBusy = false ∨ t = .reg .status) :
      StepTo s (State.returnRead { s with schedule := rest } (State.targetValue { s with schedule := rest } t))
  | write {off : Offset} {size : Nat} {v : Word} {rest : List Event} {t : Target} (h : Turn s (.write off size v) rest)
      (hp : s.phase = .ready) (ht : writeTargetOf s.params off size = some t) :
      StepTo s (State.writeTarget { s with schedule := rest } v t)

theorem State.phase_eq_ready {s : State} (h : s.isBusy = false) : s.phase = .ready := by
  cases hp : s.phase with
  | ready => rfl
  | busy op a0 a1 a2 => simp [State.isBusy, hp] at h

theorem stepTo_coreTurn {s t : State} {q : List Event} (hq : CoreMoves s q) (hm : s.faultMark = none)
    (h : coreTurn { s with schedule := q } = .next t) : StepTo s t := by
  rcases coreTurn_next (s := { s with schedule := q }) hm h with ⟨hp, rfl⟩ | ⟨op, a0, a1, a2, hp, hdone⟩
  · exact .pass hq hm hp
  · have houtcome : t = State.applyResult { s with schedule := q } (Claims.outcome s op a0 a1 a2) := by
      rcases hdone with ⟨i, hi, rfl⟩ | ⟨why, hw, rfl⟩
      · simp only [Claims.outcome, hi]
        rfl
      · simp only [Claims.outcome, hw]
        rfl
    exact houtcome ▸ .complete hq ⟨hm, hp⟩

theorem stepTo_hostRead {s : State} {off : Offset} {size : Nat} {rest : List Event} (h : Turn s (.read off size) rest) :
    StepTo s (hostRead off size { s with schedule := rest }) := by
  rcases hostRead_cases off size { s with schedule := rest } with ⟨ht, he⟩ | ⟨t, ht, hb, -, he⟩ |
    ⟨t, ht, hok, he⟩
  · exact he ▸ .busFault h ht
  · exact he ▸ .protocolFault h ht hb
  · exact he ▸ .read h ht hok

theorem stepTo_hostWrite {s : State} {off : Offset} {size : Nat} {v : Word} {rest : List Event}
    (h : Turn s (.write off size v) rest) : StepTo s (hostWrite off size v { s with schedule := rest }) := by
  rcases hostWrite_cases off size v { s with schedule := rest } with ⟨ht, he⟩ | ⟨t, ht, hb, he⟩ |
    ⟨t, ht, hb, he⟩
  · exact he ▸ .busFault h ht
  · exact he ▸ .protocolFault h ht hb
  · exact he ▸ .write h (State.phase_eq_ready hb) ht

theorem stepTo_of_step {s t : State} (h : step s = .next t) : StepTo s t := by
  rcases step_cases h with ⟨rest, hs, rfl⟩ | ⟨hm, ⟨hs, hc⟩ | ⟨rest, hs, hc⟩ | ⟨off, size, rest, hs, rfl⟩ |
    ⟨off, size, v, rest, hs, rfl⟩⟩
  · exact .reset hs
  · have hsame : { s with schedule := [] } = s := by rw [← hs]
    exact stepTo_coreTurn (q := []) (.inl ⟨hs, rfl⟩) hm (hsame.symm ▸ hc)
  · exact stepTo_coreTurn (.inr hs) hm hc
  · exact stepTo_hostRead ⟨hm, hs⟩
  · exact stepTo_hostWrite ⟨hm, hs⟩

end Sys2Proof.Machine
end

section
/-! PROOFS. The memories (R36, R52): what a command writes fits its buffer, and every step keeps the buffers canonical and within
their capacities. -/

namespace Sys2Proof.Machine

/-! ## A command's output fits its buffer (R225) -/

section
variable {x : Inputs} {res : Option Word} {w : Writes}

theorem Inputs.length_of_chars {n : Nat} {chars : List (BitVec 7)} (h : x.chars n = some chars) : chars.length = n := by
  obtain ⟨text, htext, rfl⟩ := Option.map_eq_some_iff.1 h
  rw [List.length_map, Memory.readFrom_length _ 0 n text htext]

/-- An evaluation that succeeds writes what its command may write, and a result unless it is NOP (R31, R61). -/
theorem evalOf_ok_frame {i : Instr} (h : evalOf i x = .ok res w) :
    (i ≠ .encascii → i ≠ .enctx → w.words = []) ∧ (i ≠ .pcmenc → w.pcm = []) ∧ (i = .nop → res = none) ∧
      (i ≠ .nop → ∃ v, res = some v) := by
  rcases evalOf_shape i x with ⟨r, w', he, hframe⟩ | ⟨c, -, he⟩ | he <;> rw [he] at h <;> cases h
  exact hframe

/-- ILLEGAL_CMD is no command's own error (R222). -/
theorem evalOf_err_ne_illegalCmd {i : Instr} {c : ErrCode} (h : evalOf i x = .err c) : c ≠ .illegalCmd := by
  rcases evalOf_shape i x with ⟨r, w', he, -⟩ | ⟨c', hc, he⟩ | he <;> rw [he] at h <;> cases h
  exact hc

theorem evalEncascii_words_fit (h : evalEncascii x = .ok res w) : w.words.length ≤ x.params.wordMax := by
  by_cases hle : x.a0.toNat ≤ 15
  case neg =>
    rw [evalEncascii_of_gt (Nat.not_le.1 hle)] at h
    cases h
  by_cases hfit : x.a1.toNat ≤ x.params.textMax ∧ packCount x.a0.toNat x.a1.toNat ≤ x.params.wordMax
  case neg =>
    rw [evalEncascii_of_overflow hle (by omega)] at h
    cases h
  obtain ⟨htext, hword⟩ := hfit
  cases hchars : x.chars x.a1.toNat with
  | none =>
    rw [evalEncascii_of_unwritten hle htext hword hchars] at h
    cases h
  | some chars =>
    rw [evalEncascii_of_chars hle htext hword hchars] at h
    cases h
    rwa [pack_length hle, Inputs.length_of_chars hchars]

theorem evalEnctx_words_fit (h : evalEnctx x = .ok res w) : w.words.length ≤ x.params.wordMax := by
  by_cases hle : x.a0.toNat ≤ 0x1FFFFF
  case neg =>
    rw [evalEnctx_of_gt (Nat.not_le.1 hle)] at h
    cases h
  by_cases hfit : x.a1.toNat ≤ x.params.textMax ∧ Claims.transmissionLength x.a0 x.a1.toNat ≤ x.params.wordMax
  case neg =>
    rw [evalEnctx_of_overflow hle (by omega)] at h
    cases h
  obtain ⟨htext, hword⟩ := hfit
  cases hchars : x.chars x.a1.toNat with
  | none =>
    rw [evalEnctx_of_unwritten hle htext hword hchars] at h
    cases h
  | some chars =>
    rw [evalEnctx_of_chars hle htext hword hchars] at h
    cases h
    rwa [encodeTransmission_length_eq_txlen, Inputs.length_of_chars hchars, txlen_setWidth hle]

theorem evalPcmenc_pcm_fit (h : evalPcmenc x = .ok res w) : w.pcm.length ≤ x.params.pcmMax := by
  obtain ⟨hok, words, hwords⟩ := evalPcmenc_eq_ok h
  rw [hok.evalPcmenc_of_words hwords] at h
  cases h
  rw [pcmBytes_length, Inputs.length_of_words hwords]
  exact hok.bytesFit

theorem evalOf_words_fit {i : Instr} (h : evalOf i x = .ok res w) : w.words.length ≤ x.params.wordMax := by
  by_cases hascii : i = .encascii
  · subst hascii
    exact evalEncascii_words_fit h
  by_cases htx : i = .enctx
  · subst htx
    exact evalEnctx_words_fit h
  obtain ⟨hwords, -⟩ := evalOf_ok_frame h
  simp [hwords hascii htx]

theorem evalOf_pcm_fit {i : Instr} (h : evalOf i x = .ok res w) : w.pcm.length ≤ x.params.pcmMax := by
  by_cases hpcmenc : i = .pcmenc
  · subst hpcmenc
    exact evalPcmenc_pcm_fit h
  obtain ⟨-, hpcm, -⟩ := evalOf_ok_frame h
  simp [hpcm hpcmenc]

end

/-- An outcome that succeeds is some command's evaluation (R83). -/
theorem exists_evalOf_of_outcome_ok {s : State} {op a0 a1 a2 : Word} {res : Option Word} {w : Writes}
    (h : Claims.outcome s op a0 a1 a2 = .ok res w) : ∃ i, evalOf i (s.inputs a0 a1 a2) = .ok res w := by
  unfold Claims.outcome at h
  split at h
  · exact ⟨_, h⟩
  · cases h

/-! ## The invariant -/

theorem textMax_mod_four {p : Config.Params} (h : p.wellFormed = true) : p.textMax % 4 = 0 := by
  simp only [Config.Params.wellFormed, Config.Params.textMaxOk, Bool.and_eq_true, beq_iff_eq] at h
  obtain ⟨-, ⟨hmod, -⟩, -⟩ := h
  exact hmod

theorem pcmMax_mod_four {p : Config.Params} (h : p.wellFormed = true) : p.pcmMax % 4 = 0 := by
  simp only [Config.Params.wellFormed, Config.Params.pcmMaxOk, Bool.and_eq_true, beq_iff_eq] at h
  obtain ⟨-, -, -, hmod, -⟩ := h
  exact hmod

section
variable {s t : State}

/-- Only the parameters and the buffers matter to the invariant. -/
theorem MemoryOk.congr (h : MemoryOk s) (hparams : t.params = s.params) (htext : t.textBuf = s.textBuf)
    (hword : t.wordBuf = s.wordBuf) (hpcm : t.pcmBuf = s.pcmBuf) : MemoryOk t := by
  constructor <;> simp only [hparams, htext, hword, hpcm]
  exacts [h.params, h.text, h.word, h.pcm, h.textCap, h.wordCap, h.pcmCap]

theorem MemoryOk.completeOk (h : MemoryOk s) (res : Option Word) {w : Writes}
    (hwords : w.words.length ≤ s.params.wordMax) (hpcm : w.pcm.length ≤ s.params.pcmMax) :
    MemoryOk (s.completeOk res w) where
  params := h.params
  text := h.text
  word := Memory.wf_overwrite _ _ h.word
  pcm := Memory.wf_overwrite _ _ h.pcm
  textCap := h.textCap
  wordCap := Memory.within_overwrite _ _ _ hwords h.wordCap
  pcmCap := Memory.within_overwrite _ _ _ hpcm h.pcmCap

/-- The four bytes of an aligned transfer lie within a capacity that is a multiple of 4 (R7, R52). -/
theorem MemoryOk.writeTarget (h : MemoryOk s) (v : Word) {off : Offset} {size : Nat} {tgt : Target}
    (ht : writeTargetOf s.params off size = some tgt) : MemoryOk (s.writeTarget v tgt) := by
  obtain ⟨haccess, -⟩ := writeTargetOf_some ht
  obtain ⟨-, halign, hmap⟩ := accessTarget_some haccess
  have hbases : textBase = 0x010000 ∧ pcmBase = 0x100000 := ⟨rfl, rfl⟩
  have htextMod := textMax_mod_four h.params
  have hpcmMod := pcmMax_mod_four h.params
  rcases mapOffset_some hmap with ⟨r, rfl, -⟩ | ⟨i, rfl, ho, -, hi⟩ | ⟨k, rfl, -, -, hk⟩ | ⟨i, rfl, ho, hi⟩
  · cases r <;> exact h.congr rfl rfl rfl rfl
  · have hlast : i + 3 < s.params.textMax := by omega
    exact { h with
      text := Memory.wf_writeWord _ _ _ h.text
      textCap := Memory.within_writeWord _ _ _ _ hlast h.textCap }
  · exact { h with
      word := Memory.wf_write _ _ _ h.word
      wordCap := Memory.within_write _ _ _ _ hk h.wordCap }
  · have hlast : i + 3 < s.params.pcmMax := by omega
    exact { h with
      pcm := Memory.wf_writeWord _ _ _ h.pcm
      pcmCap := Memory.within_writeWord _ _ _ _ hlast h.pcmCap }

theorem memoryOk_resetEvent (h : s.params.wellFormed = true) (rest : List Event) : MemoryOk (s.resetEvent rest) :=
  ⟨h, rfl, rfl, rfl, rfl, rfl, rfl⟩

end

/-- Settles O35: a host write stores inside the capacity because offsets and capacities are multiples of 4, and a command writes
no more elements than its own capacity check let pass. -/
theorem everyStepKeepsTheMemoriesCanonical : Obligations.EveryStepKeepsTheMemoriesCanonical := by
  unfold Obligations.EveryStepKeepsTheMemoriesCanonical
  intro s t h hstep
  have hsched (q : List Event) : MemoryOk { s with schedule := q } := h.congr rfl rfl rfl rfl
  cases stepTo_of_step hstep with
  | reset hs => exact memoryOk_resetEvent h.params _
  | pass hq hm hp => exact hsched _
  | @complete q op a0 a1 a2 hq hout =>
    cases hres : Claims.outcome s op a0 a1 a2 with
    | ok res w =>
      obtain ⟨i, hi⟩ := exists_evalOf_of_outcome_ok hres
      exact (hsched q).completeOk res (evalOf_words_fit hi) (evalOf_pcm_fit hi)
    | err c => exact h.congr rfl rfl rfl rfl
    | uninitRead => exact h.congr rfl rfl rfl rfl
  | busFault hturn ht => exact h.congr rfl rfl rfl rfl
  | protocolFault hturn ht hb => exact h.congr rfl rfl rfl rfl
  | read hturn ht hok => exact h.congr rfl rfl rfl rfl
  | write hturn hp ht => exact (hsched _).writeTarget _ ht

end Sys2Proof.Machine
end

section
/-! PROOFS. STATUS (R23–R27): the fields of a STATUS word read back, and every step keeps STATUS consistent with the phase. -/

namespace Sys2Proof.Machine

/-! ## The fields of a STATUS word -/

section
variable (b d e : Bool) (c : BitVec 4)

@[simp] theorem busyFlag_statusWord : busyFlag (statusWord b d e c) = b := by
  revert b d e c
  decide

@[simp] theorem doneFlag_statusWord : doneFlag (statusWord b d e c) = d := by
  revert b d e c
  decide

@[simp] theorem errFlag_statusWord : errFlag (statusWord b d e c) = e := by
  revert b d e c
  decide

@[simp] theorem errcodeField_statusWord : errcodeField (statusWord b d e c) = c := by
  revert b d e c
  decide

/-- STATUS at reset has every field clear (R40). -/
theorem statusWord_clear : statusWord false false false 0#4 = 0#32 := by decide

@[simp] theorem busyFlag_statusCompleted : busyFlag (statusCompleted c) = false := busyFlag_statusWord ..
@[simp] theorem doneFlag_statusCompleted : doneFlag (statusCompleted c) = true := doneFlag_statusWord ..
@[simp] theorem errFlag_statusCompleted : errFlag (statusCompleted c) = (c != 0#4) := errFlag_statusWord ..
@[simp] theorem errcodeField_statusCompleted : errcodeField (statusCompleted c) = c := errcodeField_statusWord ..

end

theorem ErrCode.code_pos (c : ErrCode) : 1 ≤ c.code.toNat := by cases c <;> decide

theorem ErrCode.code_le (c : ErrCode) : c.code.toNat ≤ 5 := by cases c <;> decide

/-! ## The invariant -/

section
variable {s t : State}

/-- Only STATUS and the phase matter to the invariant. -/
theorem StatusOk.congr (h : StatusOk s) (hstatus : t.status = s.status) (hphase : t.phase = s.phase) : StatusOk t := by
  constructor <;> simp only [State.isBusy, hstatus, hphase]
  exacts [h.fields, h.busy, h.err, h.code, h.running, h.errDone]

/-- A STATUS word made of fields that are in order (R23–R27). -/
theorem statusOk_of_eq_statusWord {done : Bool} {c : BitVec 4}
    (hstatus : s.status = statusWord s.isBusy done (c != 0#4) c) (hcode : c.toNat ≤ 5)
    (hrunning : s.isBusy = true → done = false ∧ c = 0#4) (hdone : (c != 0#4) = true → done = true) : StatusOk s := by
  constructor <;> simp only [hstatus, busyFlag_statusWord, doneFlag_statusWord, errFlag_statusWord,
    errcodeField_statusWord]
  exacts [hcode, hrunning, hdone]

theorem statusOk_of_completed {c : BitVec 4} (hphase : s.phase = .ready) (hstatus : s.status = statusCompleted c)
    (hcode : c.toNat ≤ 5) : StatusOk s := by
  have hbusy := State.isBusy_eq_false hphase
  refine statusOk_of_eq_statusWord (done := true) (c := c) ?_ hcode ?_ fun _ => rfl
  · rw [hbusy, hstatus, statusCompleted]
  · simp [hbusy]

theorem StatusOk.applyResult (h : StatusOk s) (r : Result) : StatusOk (s.applyResult r) := by
  cases r with
  | ok res w => exact statusOk_of_completed (c := 0#4) rfl rfl (by decide)
  | err c => exact statusOk_of_completed (c := c.code) rfl rfl c.code_le
  | uninitRead => exact h.congr rfl rfl

theorem statusOk_commandStart (s : State) (v : Word) : StatusOk (s.commandStart v) :=
  statusOk_of_eq_statusWord (done := false) (c := 0#4) rfl (by decide) (fun _ => ⟨rfl, rfl⟩) (by decide)

theorem statusOk_resetEvent (s : State) (rest : List Event) : StatusOk (s.resetEvent rest) :=
  statusOk_of_eq_statusWord (done := false) (c := 0#4) statusWord_clear.symm (by decide) (fun h => by cases h) (by decide)

theorem StatusOk.writeTarget (h : StatusOk s) (v : Word) (tgt : Target) : StatusOk (s.writeTarget v tgt) := by
  cases tgt with
  | reg r =>
    cases r
    case cmd => exact statusOk_commandStart s v
    all_goals exact h.congr rfl rfl
  | text i => exact h.congr rfl rfl
  | word k => exact h.congr rfl rfl
  | pcm i => exact h.congr rfl rfl

end

/-- Settles O36: STATUS and the phase change together, at reset, at command start and at a completion, each of which writes
fields that are in order. -/
theorem everyStepKeepsStatusConsistent : Obligations.EveryStepKeepsStatusConsistent := by
  unfold Obligations.EveryStepKeepsStatusConsistent
  intro s t h hstep
  have hsched (q : List Event) : StatusOk { s with schedule := q } := h.congr rfl rfl
  cases stepTo_of_step hstep with
  | reset hs => exact statusOk_resetEvent s _
  | pass hq hm hp => exact hsched _
  | complete hq hout => exact (hsched _).applyResult _
  | busFault hturn ht => exact h.congr rfl rfl
  | protocolFault hturn ht hb => exact h.congr rfl rfl
  | read hturn ht hok => exact h.congr rfl rfl
  | write hturn hp ht => exact (hsched _).writeTarget _ _

end Sys2Proof.Machine
end

section
/-! PROOFS. The operands held while a command is outstanding (R263), the marks that come only with one (R56, R239), and the
invariants at reset. -/

namespace Sys2Proof.Machine

section
variable {s t : State}

theorem operandsStable_of_ready (hp : s.phase = .ready) : OperandsStable s := by
  simp [OperandsStable, hp]

theorem OperandsStable.congr (h : OperandsStable s) (hphase : t.phase = s.phase) (hcmd : t.cmd = s.cmd)
    (harg0 : t.arg0 = s.arg0) (harg1 : t.arg1 = s.arg1) (harg2 : t.arg2 = s.arg2) : OperandsStable t := by
  simpa only [OperandsStable, hphase, hcmd, harg0, harg1, harg2] using h

theorem markOk_of_none (hm : s.faultMark = none) : MarkOk s := by
  simp [MarkOk, hm]

theorem markOk_of_busy (hb : s.isBusy = true) : MarkOk s := fun _ => hb

theorem OperandsStable.applyResult (h : OperandsStable s) (r : Result) : OperandsStable (s.applyResult r) := by
  cases r with
  | ok res w => exact operandsStable_of_ready rfl
  | err c => exact operandsStable_of_ready rfl
  | uninitRead => exact h.congr rfl rfl rfl rfl rfl

theorem Outstanding.markOk_applyResult {op a0 a1 a2 : Word} (h : Outstanding s op a0 a1 a2) (r : Result) :
    MarkOk (s.applyResult r) := by
  obtain ⟨hm, hp⟩ := h
  cases r with
  | ok res w => exact markOk_of_none hm
  | err c => exact markOk_of_none hm
  | uninitRead => exact markOk_of_busy (State.isBusy_eq_true hp)

/-- In phase Ready the only write that leaves a command outstanding is command start, which latches CMD and ARG0–ARG2. -/
theorem operandsStable_writeTarget (hp : s.phase = .ready) (v : Word) (tgt : Target) :
    OperandsStable (s.writeTarget v tgt) := by
  cases tgt with
  | reg r =>
    cases r
    case cmd => exact ⟨rfl, rfl, rfl, rfl⟩
    all_goals exact operandsStable_of_ready hp
  | text i => exact operandsStable_of_ready hp
  | word k => exact operandsStable_of_ready hp
  | pcm i => exact operandsStable_of_ready hp

end

/-- Settles O37: while a command is outstanding no write is let through, so only completion and reset, which end the phase, touch
what it latched; and the two marks are set in phase Busy alone. -/
theorem everyStepKeepsOperandsStable : Obligations.EveryStepKeepsOperandsStable := by
  unfold Obligations.EveryStepKeepsOperandsStable
  intro s t h hmark hstep
  have hsched (q : List Event) : OperandsStable { s with schedule := q } := h.congr rfl rfl rfl rfl rfl
  cases stepTo_of_step hstep with
  | reset hs => exact ⟨operandsStable_of_ready rfl, markOk_of_none rfl⟩
  | pass hq hm hp => exact ⟨hsched _, markOk_of_none hm⟩
  | @complete q op a0 a1 a2 hq hout =>
    have hout' : Outstanding { s with schedule := q } op a0 a1 a2 := hout
    exact ⟨(hsched q).applyResult _, hout'.markOk_applyResult _⟩
  | busFault hturn ht => exact ⟨h.congr rfl rfl rfl rfl rfl, fun hk => by simp at hk⟩
  | protocolFault hturn ht hb => exact ⟨h.congr rfl rfl rfl rfl rfl, markOk_of_busy hb⟩
  | read hturn ht hok =>
    obtain ⟨hm, -⟩ := hturn
    exact ⟨h.congr rfl rfl rfl rfl rfl, markOk_of_none hm⟩
  | @write off size v rest tgt hturn hp ht =>
    obtain ⟨hm, -⟩ := hturn
    obtain ⟨-, -, hkept, -⟩ := writeTarget_frame { s with schedule := rest } v tgt
    exact ⟨operandsStable_writeTarget (s := { s with schedule := rest }) hp v tgt, markOk_of_none (hkept.trans hm)⟩

/-- Settles O38: the reset state is what a reset event leaves of it, with R7's constraints met by its parameters. -/
theorem invariantsHoldAtReset : Obligations.InvariantsHoldAtReset := by
  unfold Obligations.InvariantsHoldAtReset
  exact ⟨memoryOk_resetEvent (s := .reset) (by decide) [], statusOk_resetEvent .reset [], operandsStable_of_ready rfl,
    markOk_of_none rfl⟩

end Sys2Proof.Machine
end

section
/-! PROOFS. All commands at once: what a completion leaves unchanged (R61, R221), what it answers (R43), and what it depends
on (R44, R85). -/

namespace Sys2Proof.Machine

/-! ## Completion, in the terms of the statements -/

/-- A meaning that answers a next state was enabled, and applied its command's outcome (R43). -/
theorem outstanding_of_exec {i : Instr} {s t : State} (h : exec i s = .next t) :
    ∃ op a0 a1 a2, Outstanding s op a0 a1 a2 ∧ t = s.applyResult (evalOf i (s.inputs a0 a1 a2)) := by
  obtain ⟨hm, op, a0, a1, a2, hp, ht⟩ := exec_next h
  exact ⟨op, a0, a1, a2, ⟨hm, hp⟩, ht⟩

theorem exec_of_outstanding (i : Instr) {s : State} {op a0 a1 a2 : Word} (h : Outstanding s op a0 a1 a2) :
    exec i s = .next (s.applyResult (evalOf i (s.inputs a0 a1 a2))) := by
  obtain ⟨hm, hp⟩ := h
  rw [exec_eq_complete, complete_busy _ hm hp]

/-- An outstanding command has one next state. -/
theorem eq_applyResult_of_exec {i : Instr} {s t : State} {op a0 a1 a2 : Word} (h : Outstanding s op a0 a1 a2)
    (ht : exec i s = .next t) : t = s.applyResult (evalOf i (s.inputs a0 a1 a2)) :=
  Host.Outcome.next.inj (ht.symm.trans (exec_of_outstanding i h))

/-! ## Frames -/

/-- What no outcome touches (R28, R61). -/
theorem applyResult_frame (s : State) (r : Result) :
    (s.applyResult r).cmd = s.cmd ∧ (s.applyResult r).arg0 = s.arg0 ∧ (s.applyResult r).arg1 = s.arg1 ∧
    (s.applyResult r).arg2 = s.arg2 ∧ (s.applyResult r).textBuf = s.textBuf ∧ (s.applyResult r).params = s.params ∧
    (s.applyResult r).schedule = s.schedule ∧ (s.applyResult r).readData = s.readData ∧
    (s.applyResult r).draws = s.draws := by
  cases r <;> exact ⟨rfl, rfl, rfl, rfl, rfl, rfl, rfl, rfl, rfl⟩

/-- Settles O16: no outcome touches the fields named, and a success writes only what its command may write. -/
theorem completionFrameOfEveryCommand : Obligations.CompletionFrameOfEveryCommand := by
  unfold Obligations.CompletionFrameOfEveryCommand
  intro i s t hexec
  obtain ⟨op, a0, a1, a2, -, rfl⟩ := outstanding_of_exec hexec
  obtain ⟨hcmd, harg0, harg1, harg2, htext, hparams, hsched, hread, hdraws⟩ :=
    applyResult_frame s (evalOf i (s.inputs a0 a1 a2))
  refine ⟨hcmd, harg0, harg1, harg2, htext, hparams, hsched, hread, hdraws, ?_⟩
  cases hres : evalOf i (s.inputs a0 a1 a2) with
  | ok res w =>
    obtain ⟨hwords, hpcm, hnop, -⟩ := evalOf_ok_frame hres
    refine ⟨fun hascii htx k => ?_, fun hpcmenc k => ?_, fun hi => ?_⟩
    · simp [State.applyResult, hwords hascii htx]
    · simp [State.applyResult, hpcm hpcmenc]
    · simp [State.applyResult, hnop hi]
  | err c => exact ⟨fun _ _ _ => rfl, fun _ _ => rfl, fun _ => rfl⟩
  | uninitRead => exact ⟨fun _ _ _ => rfl, fun _ _ => rfl, fun _ => rfl⟩

/-- Settles O17: a success leaves ERR clear, an error changes what R221 names, and only UNINIT_READ sets a mark. -/
theorem errorsArePrecise : Obligations.ErrorsArePrecise := by
  unfold Obligations.ErrorsArePrecise
  intro i s t hexec
  obtain ⟨op, a0, a1, a2, ⟨hm, -⟩, rfl⟩ := outstanding_of_exec hexec
  cases evalOf i (s.inputs a0 a1 a2) with
  | ok res w =>
    refine ⟨fun _ herr => absurd herr ?_, fun hmark => absurd hm hmark⟩
    exact Bool.eq_false_iff.1 (errFlag_statusCompleted 0#4)
  | err c =>
    refine ⟨fun _ _ => ⟨rfl, busyFlag_statusCompleted _, doneFlag_statusCompleted _, ?_⟩, fun hmark => absurd hm hmark⟩
    have hcode : errcodeField (s.applyResult (.err c)).status = c.code := errcodeField_statusCompleted c.code
    rw [hcode]
    exact ⟨c.code_pos, c.code_le⟩
  | uninitRead => exact ⟨fun hnone => (Option.some_ne_none _ hnone).elim, fun _ => rfl⟩

/-! ## What a completion answers (R43) -/

theorem statusCompleted_of_ne_illegalCmd {c : ErrCode} (h : c ≠ .illegalCmd) :
    statusCompleted c.code = 0x00000206#32 ∨ statusCompleted c.code = 0x00000306#32 ∨
    statusCompleted c.code = 0x00000406#32 ∨ statusCompleted c.code = 0x00000506#32 := by
  cases c with
  | illegalCmd => contradiction
  | argRange => exact .inl statusCompleted_argRange
  | rate => exact .inr (.inl statusCompleted_rate)
  | bufOverflow => exact .inr (.inr (.inl statusCompleted_bufOverflow))
  | arithOverflow => exact .inr (.inr (.inr statusCompleted_arithOverflow))

/-- Settles O18: completion is enabled exactly when a command is outstanding, and its three outcomes are a success, one of the
errors a command may have, and UNINIT_READ. -/
theorem everyOutstandingCommandCompletes : Obligations.EveryOutstandingCommandCompletes := by
  unfold Obligations.EveryOutstandingCommandCompletes
  intro i s
  refine ⟨⟨?_, ?_⟩, ?_⟩
  · rintro ⟨t, hexec⟩
    obtain ⟨op, a0, a1, a2, h, -⟩ := outstanding_of_exec hexec
    exact ⟨op, a0, a1, a2, h⟩
  · rintro ⟨op, a0, a1, a2, h⟩
    exact ⟨_, exec_of_outstanding i h⟩
  · intro t hexec
    obtain ⟨op, a0, a1, a2, ⟨hm, -⟩, rfl⟩ := outstanding_of_exec hexec
    cases hres : evalOf i (s.inputs a0 a1 a2) with
    | ok res w => exact .inr ⟨hm, rfl, .inl statusCompleted_ok⟩
    | err c =>
      exact .inr ⟨hm, rfl, .inr (statusCompleted_of_ne_illegalCmd (evalOf_err_ne_illegalCmd hres))⟩
    | uninitRead => exact .inl rfl

/-! ## What an outcome depends on (R44, R85) -/

/-- An element of an output holds the value written whatever the buffer held, or what the buffer held (R61). -/
theorem read_overwrite_eq_or_unchanged {α : Type} (m₁ m₂ : Memory α) (vs : List α) (k : Nat) :
    Memory.read (Memory.overwrite m₁ vs) k = Memory.read (Memory.overwrite m₂ vs) k ∨
    (Memory.read (Memory.overwrite m₁ vs) k = Memory.read m₁ k ∧
      Memory.read (Memory.overwrite m₂ vs) k = Memory.read m₂ k) := by
  rcases Nat.lt_or_ge k vs.length with hk | hk
  · exact .inl (by rw [Memory.read_overwrite_of_lt _ hk, Memory.read_overwrite_of_lt _ hk])
  · exact .inr ⟨Memory.read_overwrite_of_ge _ hk, Memory.read_overwrite_of_ge _ hk⟩

/-- Settles O19: the two states have the same inputs, so one outcome is applied to both. -/
theorem outcomeDependsOnOperandsAndInputBuffers : Obligations.OutcomeDependsOnOperandsAndInputBuffers := by
  unfold Obligations.OutcomeDependsOnOperandsAndInputBuffers
  intro i s₁ s₂ t₁ t₂ op₁ op₂ a0 a1 a2 h₁ h₂ hparams htext hword hexec₁ hexec₂
  have hinputs : s₂.inputs a0 a1 a2 = s₁.inputs a0 a1 a2 := by simp only [State.inputs, hparams, htext, hword]
  obtain rfl := eq_applyResult_of_exec h₁ hexec₁
  obtain rfl := eq_applyResult_of_exec h₂ hexec₂
  have hmarks : s₁.faultMark = s₂.faultMark := h₁.1.trans h₂.1.symm
  rw [hinputs]
  cases hres : evalOf i (s₁.inputs a0 a1 a2) with
  | ok res w =>
    refine ⟨hmarks, congrArg (Memory.overwrite · w.words) hword, fun _ => ⟨rfl, fun _ hi => ?_⟩,
      read_overwrite_eq_or_unchanged s₁.pcmBuf s₂.pcmBuf w.pcm⟩
    obtain ⟨-, -, -, hsome⟩ := evalOf_ok_frame hres
    obtain ⟨v, rfl⟩ := hsome hi
    rfl
  | err c =>
    exact ⟨hmarks, hword, fun _ => ⟨rfl, fun hok => absurd hok (statusCompleted_code_ne_ok c)⟩,
      fun k => .inr ⟨rfl, rfl⟩⟩
  | uninitRead => exact ⟨rfl, hword, fun hnone => (Option.some_ne_none _ hnone).elim, fun k => .inr ⟨rfl, rfl⟩⟩

/-- Each evaluation reads the operands R87 lists for its command, and no others. -/
theorem evalOf_congr_operands (i : Instr) (s : State) {a0 a1 a2 b0 b1 b2 : Word}
    (h0 : 0 < Claims.operandsRead i → a0 = b0) (h1 : 1 < Claims.operandsRead i → a1 = b1)
    (h2 : 2 < Claims.operandsRead i → a2 = b2) :
    evalOf i (s.inputs a0 a1 a2) = evalOf i (s.inputs b0 b1 b2) := by
  cases i
  case nop => rfl
  case crc | parity | enccw | addroff =>
    obtain rfl := h0 (by decide)
    rfl
  case encascii | enctx | txlen =>
    obtain rfl := h0 (by decide)
    obtain rfl := h1 (by decide)
    rfl
  case pcmlen | pcmenc =>
    obtain rfl := h0 (by decide)
    obtain rfl := h1 (by decide)
    obtain rfl := h2 (by decide)
    rfl

/-- The same outcome with other operands outstanding: they stay where the command stays outstanding. -/
theorem applyResult_with_operands (s : State) (r : Result) (op a0 a1 a2 b0 b1 b2 : Word) {t : State}
    (ht : t = State.applyResult { s with phase := .busy op a0 a1 a2 } r) :
    State.applyResult { s with phase := .busy op b0 b1 b2 } r =
      { t with phase := if t.phase = .ready then .ready else .busy op b0 b1 b2 } := by
  subst ht
  cases r <;> rfl

/-- Settles O20: the evaluation is the same, and the operands themselves stay only where the command stays outstanding. -/
theorem unlistedOperandsAreIgnored : Obligations.UnlistedOperandsAreIgnored := by
  unfold Obligations.UnlistedOperandsAreIgnored
  intro i s t op a0 a1 a2 b0 b1 b2 h0 h1 h2 hexec
  obtain ⟨hm, -⟩ := exec_next hexec
  have ht : t = State.applyResult { s with phase := .busy op a0 a1 a2 } (evalOf i (s.inputs a0 a1 a2)) :=
    eq_applyResult_of_exec (op := op) ⟨hm, rfl⟩ hexec
  have hexec' : exec i { s with phase := .busy op b0 b1 b2 } =
      .next (State.applyResult { s with phase := .busy op b0 b1 b2 } (evalOf i (s.inputs b0 b1 b2))) :=
    exec_of_outstanding (op := op) i ⟨hm, rfl⟩
  rw [hexec', ← evalOf_congr_operands i s h0 h1 h2, applyResult_with_operands s _ op a0 a1 a2 b0 b1 b2 ht]

end Sys2Proof.Machine
end

section
/-! PROOFS. Who changes what in one step (R21, R41): the phase, the registers and their owners; the Core's turn, reset and the
faulted state; and a polled command's completion (R262). -/

namespace Sys2Proof.Machine

/-! ## The steps of the Core -/

theorem coreTurn_ready {s : State} (hp : s.phase = .ready) : coreTurn s = .next s := by
  simp [coreTurn, hp]

theorem coreTurn_of_decode_instr {s : State} {op a0 a1 a2 : Word} {i : Instr} (hp : s.phase = .busy op a0 a1 a2)
    (hdecode : decode op = .instr i) : coreTurn s = exec i s := by
  simp [coreTurn, hp, hdecode]

/-- The Core's turn applies the outstanding command word's outcome (R43, R83). -/
theorem coreTurn_of_outstanding {s : State} {op a0 a1 a2 : Word} (h : Outstanding s op a0 a1 a2) :
    coreTurn s = .next (s.applyResult (Claims.outcome s op a0 a1 a2)) := by
  cases hdecode : decode op with
  | instr i => simp only [coreTurn_of_decode_instr h.2 hdecode, exec_of_outstanding i h, Claims.outcome, hdecode]
  | illegal why => simp only [coreTurn_of_decode_illegal h hdecode, Claims.outcome, hdecode, State.applyResult]

/-- Settles O5: the step is the Core's turn, which decodes the outstanding word. -/
theorem stepRunsTheDecodedCommand : Obligations.StepRunsTheDecodedCommand := by
  unfold Obligations.StepRunsTheDecodedCommand
  intro s op a0 a1 a2 i ⟨hm, hp⟩ hdecode
  refine ⟨fun rest hs => ?_, fun hs => ?_⟩
  · rw [step_core hm hs, coreTurn_of_decode_instr (s := { s with schedule := rest }) hp hdecode]
  · rw [step_empty hm hs, coreTurn_of_decode_instr hp hdecode]

/-- Settles O32: with nothing on the schedule it is the Core's turn, which passes in phase Ready. -/
theorem idleCoreHoldsItsState : Obligations.IdleCoreHoldsItsState := by
  unfold Obligations.IdleCoreHoldsItsState
  intro s hp hm hs
  rw [step_empty hm hs, coreTurn_ready hp]

/-! ## The faulted state and reset -/

theorem step_marked {s : State} {k : FaultMark} (hm : s.faultMark = some k) (hs : ∀ rest, s.schedule ≠ .reset :: rest) :
    step s = .fault (.marked k) := by
  cases hsched : s.schedule with
  | nil => simp [step, advance, hm, hsched]
  | cons e rest =>
    cases e
    case reset => exact absurd hsched (hs rest)
    all_goals simp [step, advance, hm, hsched]

theorem exec_marked (i : Instr) {s : State} {k : FaultMark} (hm : s.faultMark = some k) :
    exec i s = .fault (.marked k) := by
  simp [exec_eq_complete, complete, hm]

/-- Settles O29: every other step and every completion first looks at the mark, which a reset event clears. -/
theorem faultedStateStopsEveryAgent : Obligations.FaultedStateStopsEveryAgent := by
  unfold Obligations.FaultedStateStopsEveryAgent
  exact fun s k hm => ⟨step_marked hm, fun i => exec_marked i hm, fun rest hs => ⟨_, step_reset hs, rfl⟩⟩

/-- Settles O30: the step is the reset event, which writes R40's values and looks at no phase. -/
theorem resetSetsEveryPieceOfState : Obligations.ResetSetsEveryPieceOfState := by
  unfold Obligations.ResetSetsEveryPieceOfState
  intro s rest hs
  exact ⟨_, step_reset hs, rfl, rfl, rfl, rfl, rfl, rfl, Memory.read_nil, Memory.read_nil, Memory.read_nil, rfl, rfl, rfl,
    rfl⟩

/-! ## The phase and the registers -/

theorem CoreMoves.schedule_eq {s : State} {q : List Event} (h : CoreMoves s q) :
    s.schedule = [] ∨ ∃ rest, s.schedule = .core :: rest := by
  rcases h with ⟨hs, -⟩ | hs
  · exact .inl hs
  · exact .inr ⟨q, hs⟩

/-- A write that reaches a register has size 4 and the register's offset (R21, R53). -/
theorem writeTargetOf_reg {p : Config.Params} {off : Offset} {size : Nat} {r : Reg}
    (h : writeTargetOf p off size = some (.reg r)) : size = 4 ∧ off = BitVec.ofNat 21 (regOffset r) := by
  obtain ⟨haccess, -⟩ := writeTargetOf_some h
  obtain ⟨hsize, -⟩ := accessTarget_some haccess
  refine ⟨hsize, ?_⟩
  rw [← toNat_eq_regOffset_of_accessTarget haccess, BitVec.ofNat_toNat, BitVec.setWidth_eq]

/-- The one write that changes the phase is command start (R41, R42). -/
theorem writeTarget_phase (s : State) (v : Word) {tgt : Target} (h : tgt ≠ .reg .cmd) :
    (s.writeTarget v tgt).phase = s.phase := by
  cases tgt with
  | reg r =>
    cases r
    case cmd => contradiction
    all_goals rfl
  | text i => rfl
  | word k => rfl
  | pcm i => rfl

/-- Settles O33: reads and faults keep the phase, a write changes it at CMD alone, and a completion that changes it has a STATUS
with DONE. -/
theorem phaseChangesOnlyByStartCompletionReset : Obligations.PhaseChangesOnlyByStartCompletionReset := by
  unfold Obligations.PhaseChangesOnlyByStartCompletionReset
  intro s t hstep hne
  cases stepTo_of_step hstep with
  | reset hs => exact .inl ⟨_, hs⟩
  | @complete q op a0 a1 a2 hq hout =>
    obtain ⟨hm, hp⟩ := hout
    refine .inr (.inr ⟨State.isBusy_eq_true hp, hm, ?_⟩)
    revert hne
    cases Claims.outcome s op a0 a1 a2 with
    | ok res w => exact fun _ => ⟨rfl, doneFlag_statusCompleted _, hq.schedule_eq⟩
    | err c => exact fun _ => ⟨rfl, doneFlag_statusCompleted _, hq.schedule_eq⟩
    | uninitRead => exact fun hne => absurd rfl hne
  | @write off size v rest tgt hturn hp ht =>
    obtain ⟨hm, hs⟩ := hturn
    by_cases hcmd : tgt = .reg .cmd
    · subst hcmd
      obtain ⟨rfl, rfl⟩ := writeTargetOf_reg ht
      exact .inr (.inl ⟨hp, hm, v, rest, hs, rfl⟩)
    · exact absurd (writeTarget_phase { s with schedule := rest } v hcmd) hne
  | pass hq hm hp => exact absurd rfl hne
  | busFault hturn ht => exact absurd rfl hne
  | protocolFault hturn ht hb => exact absurd rfl hne
  | read hturn ht hok => exact absurd rfl hne

/-- A host write stores at the register it reaches (R54). -/
theorem writeTarget_reg_same (s : State) (v : Word) {r : Reg} (h : (Target.reg r).writable = true) :
    (s.writeTarget v (.reg r)).reg r = v := by
  cases r
  case status | res0 => cases h
  all_goals rfl

/-- A host write changes no register but the one it reaches, and STATUS at command start (R42, R54). -/
theorem writeTarget_reg_of_ne (s : State) (v : Word) {tgt : Target} {r : Reg} (hne : tgt ≠ .reg r)
    (hstart : tgt = .reg .cmd → r ≠ .status) : (s.writeTarget v tgt).reg r = s.reg r := by
  cases tgt with
  | reg r' => cases r' <;> cases r <;> simp_all [State.writeTarget, State.reg]
  | text i => cases r <;> rfl
  | word k => cases r <;> rfl
  | pcm i => cases r <;> rfl

theorem applyResult_reg (s : State) (r : Result) {x : Reg} (hstatus : x ≠ .status) (hres0 : x ≠ .res0) :
    (s.applyResult r).reg x = s.reg x := by
  obtain ⟨hcmd, harg0, harg1, harg2, -⟩ := applyResult_frame s r
  cases x
  case status | res0 => contradiction
  case cmd => exact hcmd
  case arg0 => exact harg0
  case arg1 => exact harg1
  case arg2 => exact harg2

/-- CMD and ARG0–ARG2 change only by a host write of the new value (R28). -/
theorem reg_changes_by_write {s t : State} (hstep : step s = .next t) (hreset : ∀ rest, s.schedule ≠ .reset :: rest)
    {r : Reg} (hstatus : r ≠ .status) (hres0 : r ≠ .res0) (hne : t.reg r ≠ s.reg r) :
    ∃ rest, s.schedule = .write (BitVec.ofNat 21 (regOffset r)) 4 (t.reg r) :: rest := by
  cases stepTo_of_step hstep with
  | reset hs => exact absurd hs (hreset _)
  | complete hq hout => exact absurd (applyResult_reg { s with schedule := _ } _ hstatus hres0) hne
  | @write off size v rest tgt hturn hp ht =>
    obtain ⟨-, hs⟩ := hturn
    by_cases htgt : tgt = .reg r
    · subst htgt
      obtain ⟨-, hwritable⟩ := writeTargetOf_some ht
      obtain ⟨rfl, rfl⟩ := writeTargetOf_reg ht
      exact ⟨rest, by rw [writeTarget_reg_same _ v hwritable, hs]⟩
    · exact absurd (writeTarget_reg_of_ne { s with schedule := rest } v htgt fun _ => hstatus) hne
  | pass hq hm hp => exact absurd rfl hne
  | busFault hturn ht => exact absurd rfl hne
  | protocolFault hturn ht hb => exact absurd rfl hne
  | read hturn ht hok => exact absurd rfl hne

/-- RES0 changes only at the successful completion of a command (R31). -/
theorem res0_changes_by_completion {s t : State} (hstep : step s = .next t)
    (hreset : ∀ rest, s.schedule ≠ .reset :: rest) (hne : t.res0 ≠ s.res0) :
    s.isBusy = true ∧ t.status = 0x00000002#32 ∧ (s.schedule = [] ∨ ∃ rest, s.schedule = .core :: rest) := by
  cases stepTo_of_step hstep with
  | reset hs => exact absurd hs (hreset _)
  | @complete q op a0 a1 a2 hq hout =>
    obtain ⟨-, hp⟩ := hout
    refine ⟨State.isBusy_eq_true hp, ?_, hq.schedule_eq⟩
    revert hne
    cases Claims.outcome s op a0 a1 a2 with
    | ok res w => exact fun _ => statusCompleted_ok
    | err c => exact fun hne => absurd rfl hne
    | uninitRead => exact fun hne => absurd rfl hne
  | @write off size v rest tgt hturn hp ht =>
    obtain ⟨-, hkept, -⟩ := writeTarget_frame { s with schedule := rest } v tgt
    exact absurd hkept hne
  | pass hq hm hp => exact absurd rfl hne
  | busFault hturn ht => exact absurd rfl hne
  | protocolFault hturn ht hb => exact absurd rfl hne
  | read hturn ht hok => exact absurd rfl hne

/-- Settles O34: a write stores at its own register, and a completion touches RES0 on success alone. -/
theorem registersChangeOnlyByTheirOwner : Obligations.RegistersChangeOnlyByTheirOwner := by
  unfold Obligations.RegistersChangeOnlyByTheirOwner
  intro s t hstep hreset
  exact ⟨reg_changes_by_write hstep hreset (r := .cmd) (by decide) (by decide),
    reg_changes_by_write hstep hreset (r := .arg0) (by decide) (by decide),
    reg_changes_by_write hstep hreset (r := .arg1) (by decide) (by decide),
    reg_changes_by_write hstep hreset (r := .arg2) (by decide) (by decide),
    res0_changes_by_completion hstep hreset⟩

/-! ## Polling (R262) -/

theorem core_run_zero (s : State) : Sys2Proof.core.run 0 s = .next s := rfl

theorem core_run_succ {k : Nat} {s t : State} (h : step s = .next t) :
    Sys2Proof.core.run (k + 1) s = Sys2Proof.core.run k t := by
  have hcore : Sys2Proof.core.step s = .next t := h
  simp only [Host.Core.run, hcore]

/-- What a completed command leaves: phase Ready, BUSY 0 and DONE 1; or the mark UNINIT_READ (R43). -/
def Completed (t : State) : Prop :=
  (t.phase = .ready ∧ t.faultMark = none ∧ busyFlag t.status = false ∧ doneFlag t.status = true) ∨
    t.faultMark = some .uninitRead

theorem Outstanding.completed_applyResult {s : State} {op a0 a1 a2 : Word} (h : Outstanding s op a0 a1 a2) (r : Result) :
    Completed (s.applyResult r) := by
  obtain ⟨hm, -⟩ := h
  cases r with
  | ok res w => exact .inl ⟨rfl, hm, busyFlag_statusCompleted _, doneFlag_statusCompleted _⟩
  | err c => exact .inl ⟨rfl, hm, busyFlag_statusCompleted _, doneFlag_statusCompleted _⟩
  | uninitRead => exact .inr rfl

/-- A STATUS read is answered in every phase (R55). -/
theorem step_statusRead {s : State} {rest : List Event} (h : Turn s (.read 0x000004#21 4) rest) :
    step s = .next (State.returnRead { s with schedule := rest } s.status) := by
  obtain ⟨hm, hs⟩ := h
  have ht : accessTarget s.params 0x000004#21 4 = some (.reg .status) := accessTarget_reg s.params rfl
  rw [step_read hm hs, hostRead_status (s := { s with schedule := rest }) ht]

/-- Settles O39: each STATUS read leaves the command outstanding with one entry less on the schedule, and once there is none the
Core completes it. -/
theorem polledCommandCompletes : Obligations.PolledCommandCompletes := by
  unfold Obligations.PolledCommandCompletes
  intro n
  induction n with
  | zero =>
    intro s op a0 a1 a2 h hs
    have hstep : step s = .next (s.applyResult (Claims.outcome s op a0 a1 a2)) := by
      rw [step_empty h.1 hs, coreTurn_of_outstanding h]
    exact ⟨_, (core_run_succ hstep).trans (core_run_zero _), h.completed_applyResult _⟩
  | succ n ih =>
    intro s op a0 a1 a2 h hs
    have hstep := step_statusRead ⟨h.1, hs⟩
    rw [core_run_succ hstep]
    exact ih _ op a0 a1 a2 h rfl

end Sys2Proof.Machine
end

section
/-! PROOFS. Host accesses to the buffers (R51, R54, R55): which target an offset has, the bytes of a transfer, and what one access
in phase Ready stores and returns. -/

namespace Sys2Proof.Machine

/-! ## The window's map (R50, R51) -/

section
variable (p : Config.Params) {off : Offset} (halign : off.toNat % 4 = 0)
include halign

theorem accessTarget_text {i : Nat} (ho : off.toNat = 0x010000 + i) (hi : i < 0x10000) (hcap : i < p.textMax) :
    accessTarget p off 4 = some (.text i) := by
  unfold accessTarget mapOffset textBase wordBase
  rw [if_pos ⟨rfl, halign⟩, ho, if_neg (by omega), if_pos (by omega), Nat.add_sub_cancel_left, if_pos hcap]

theorem accessTarget_word {k : Nat} (ho : off.toNat = 0x020000 + 4 * k) (hk : 4 * k < 0x10000) (hcap : k < p.wordMax) :
    accessTarget p off 4 = some (.word k) := by
  unfold accessTarget mapOffset textBase wordBase wordEnd
  rw [if_pos ⟨rfl, halign⟩, ho, if_neg (by omega), if_neg (by omega), if_pos (by omega), Nat.add_sub_cancel_left,
    Nat.mul_div_cancel_left k (by decide), if_pos hcap]

theorem accessTarget_pcm {i : Nat} (ho : off.toNat = 0x100000 + i) (hcap : i < p.pcmMax) :
    accessTarget p off 4 = some (.pcm i) := by
  unfold accessTarget mapOffset textBase wordBase wordEnd pcmBase
  rw [if_pos ⟨rfl, halign⟩, ho, if_neg (by omega), if_neg (by omega), if_neg (by omega), if_neg (by omega),
    Nat.add_sub_cancel_left, if_pos hcap]

end

/-- The offset a target stands at (R21, R51). -/
def Target.offset : Target → Nat
  | .reg r => regOffset r
  | .text i => textBase + i
  | .word k => wordBase + 4 * k
  | .pcm i => pcmBase + i

/-- An access stands at its target's offset. -/
theorem toNat_eq_offset_of_accessTarget {p : Config.Params} {off : Offset} {size : Nat} {t : Target}
    (h : accessTarget p off size = some t) : off.toNat = t.offset := by
  obtain ⟨-, halign, hmap⟩ := accessTarget_some h
  rcases mapOffset_some hmap with ⟨r, rfl, ho⟩ | ⟨i, rfl, ho, -⟩ | ⟨k, rfl, ho, -⟩ | ⟨i, rfl, ho, -⟩
  · exact ho
  · exact ho
  · rw [halign] at ho
    exact ho
  · exact ho

theorem windowOffset_coreBase_add (p : Config.Params) (off : Offset) :
    windowOffset p (p.coreBase + off.toNat) = some off := by
  have hlt : off.toNat < 0x200000 := off.isLt
  simp [windowOffset, hlt]

/-- Settles O28: a target has one offset, and every offset lies below the window's 2 MiB. -/
theorem windowMapIsInjective : Obligations.WindowMapIsInjective := by
  unfold Obligations.WindowMapIsInjective
  intro p off₁ off₂ t
  refine ⟨fun h₁ h₂ => BitVec.eq_of_toNat_eq ?_, windowOffset_coreBase_add p off₁⟩
  rw [toNat_eq_offset_of_accessTarget h₁, toNat_eq_offset_of_accessTarget h₂]

/-! ## The bytes of a word (R57) -/

theorem extract_byte_zero (a b c d : Byte) : ((a ++ b) ++ (c ++ d)).extractLsb' 0 8 = d :=
  (BitVec.extractLsb'_append_eq_of_add_le (by decide)).trans BitVec.extractLsb'_append_eq_right

theorem extract_byte_one (a b c d : Byte) : ((a ++ b) ++ (c ++ d)).extractLsb' 8 8 = c :=
  (BitVec.extractLsb'_append_eq_of_add_le (by decide)).trans BitVec.extractLsb'_append_eq_left

theorem extract_byte_two (a b c d : Byte) : ((a ++ b) ++ (c ++ d)).extractLsb' 16 8 = b :=
  (BitVec.extractLsb'_append_eq_of_le (by decide)).trans BitVec.extractLsb'_append_eq_right

theorem extract_byte_three (a b c d : Byte) : ((a ++ b) ++ (c ++ d)).extractLsb' 24 8 = a :=
  (BitVec.extractLsb'_append_eq_of_le (by decide)).trans BitVec.extractLsb'_append_eq_left

/-- A word is its four bytes. -/
theorem append_bytes (v : Word) :
    (v.extractLsb' 24 8 ++ v.extractLsb' 16 8) ++ (v.extractLsb' 8 8 ++ v.extractLsb' 0 8) = v := by
  rw [BitVec.extractLsb'_append_extractLsb'_eq_extractLsb' (show 24 = 16 + 8 from rfl),
    BitVec.extractLsb'_append_extractLsb'_eq_extractLsb' (show 8 = 0 + 8 from rfl),
    BitVec.extractLsb'_append_extractLsb'_eq_extractLsb' (show 16 = 0 + 16 from rfl), BitVec.extractLsb'_eq_self]

section
variable (m : Memory Byte) (i : Nat)

/-- Lane `j` of a host transfer from a byte buffer: the byte as written, or its lane of the draw (R55, I13). -/
theorem Memory.readWord_byte (d : Word) {j : Nat} (hj : j < 4) :
    (Memory.readWord m i d).extractLsb' (8 * j) 8 = (Memory.read m (i + j)).getD (d.extractLsb' (8 * j) 8) := by
  unfold Memory.readWord
  match j with
  | 0 => exact extract_byte_zero ..
  | 1 => exact extract_byte_one ..
  | 2 => exact extract_byte_two ..
  | 3 => exact extract_byte_three ..

/-- Four written bytes read as the word they make up, whatever the draw. -/
theorem Memory.readWord_of_written (d : Word) {v : Word}
    (h : ∀ j, j < 4 → Memory.read m (i + j) = some (v.extractLsb' (8 * j) 8)) : Memory.readWord m i d = v := by
  have h0 : Memory.read m i = some (v.extractLsb' 0 8) := h 0 (by decide)
  have h1 : Memory.read m (i + 1) = some (v.extractLsb' 8 8) := h 1 (by decide)
  have h2 : Memory.read m (i + 2) = some (v.extractLsb' 16 8) := h 2 (by decide)
  have h3 : Memory.read m (i + 3) = some (v.extractLsb' 24 8) := h 3 (by decide)
  rw [Memory.readWord, h0, h1, h2, h3]
  exact append_bytes v

theorem Memory.read_writeWord_inside (v : Word) {j : Nat} (hj : j < 4) :
    Memory.read (Memory.writeWord m i v) (i + j) = some (v.extractLsb' (8 * j) 8) := by
  rw [Memory.read_writeWord]
  match j with
  | 0 => simp
  | 1 => simp
  | 2 => simp
  | 3 => simp

theorem Memory.read_writeWord_outside (v : Word) {k : Nat} (hk : k < i ∨ i + 4 ≤ k) :
    Memory.read (Memory.writeWord m i v) k = Memory.read m k := by
  rw [Memory.read_writeWord, if_neg (by omega), if_neg (by omega), if_neg (by omega), if_neg (by omega)]

end

/-! ## One access in phase Ready -/

theorem step_write_target {s : State} {off : Offset} {size : Nat} {v : Word} {rest : List Event} {t : Target}
    (h : Turn s (.write off size v) rest) (hp : s.phase = .ready) (ht : accessTarget s.params off size = some t)
    (hw : t.writable = true) : step s = .next (State.writeTarget { s with schedule := rest } v t) :=
  step_write_ready h hp (writeTargetOf_of_accessTarget ht hw)

/-- Settles O22: the offset's target is the register, the bytes or the word named, and the write stores there. -/
theorem hostWriteStoresAtTheMappedElement : Obligations.HostWriteStoresAtTheMappedElement := by
  unfold Obligations.HostWriteStoresAtTheMappedElement
  intro s off v rest hturn hp halign
  have hstep {t : Target} (ht : accessTarget s.params off 4 = some t) (hw : t.writable = true) :=
    step_write_target hturn hp ht hw
  refine ⟨fun ho => hstep (accessTarget_reg _ (r := .arg0) ho) rfl, fun ho => hstep (accessTarget_reg _ (r := .arg1) ho) rfl,
    fun ho => hstep (accessTarget_reg _ (r := .arg2) ho) rfl, fun i ho hi hcap => ?text, fun k ho hk hcap => ?word,
    fun i ho hcap => ?pcm⟩
  case text =>
    exact ⟨_, hstep (accessTarget_text _ halign ho hi hcap) rfl, rfl,
      fun j hj => Memory.read_writeWord_inside _ i v hj, fun k hk => Memory.read_writeWord_outside _ i v hk⟩
  case word =>
    exact ⟨_, hstep (accessTarget_word _ halign ho hk hcap) rfl, rfl, Memory.read_write_same _ k v,
      fun j hj => Memory.read_write_other _ v hj⟩
  case pcm =>
    exact ⟨_, hstep (accessTarget_pcm _ halign ho hcap) rfl, rfl,
      fun j hj => Memory.read_writeWord_inside _ i v hj, fun k hk => Memory.read_writeWord_outside _ i v hk⟩

/-- A host read in phase Ready, or of STATUS, returns the value at its target (R55). -/
theorem step_read_target {s : State} {off : Offset} {size : Nat} {rest : List Event} {t : Target}
    (h : Turn s (.read off size) rest) (ht : accessTarget s.params off size = some t)
    (hok : s.phase = .ready ∨ t = .reg .status) :
    step s = .next { s with schedule := rest, readData := some (s.targetValue t), draws := s.draws + 1 } := by
  obtain ⟨hm, hs⟩ := h
  have hlet : ¬ (State.isBusy { s with schedule := rest } = true ∧ t ≠ .reg .status) := by
    rintro ⟨hb, hne⟩
    have hready := State.isBusy_eq_false (s := { s with schedule := rest }) (hok.resolve_right hne)
    rw [hready] at hb
    cases hb
  rw [step_read hm hs, hostRead, ht]
  simp only [if_neg hlet]
  cases t <;> rfl

/-- Settles O23: the value at the offset's target is the register's, the word's, or the word its four written bytes make up. -/
theorem hostReadReturnsTheMappedElement : Obligations.HostReadReturnsTheMappedElement := by
  unfold Obligations.HostReadReturnsTheMappedElement
  intro s off rest hturn hp halign v hv
  suffices h : ∃ t, accessTarget s.params off 4 = some t ∧ s.targetValue t = v by
    obtain ⟨t, ht, rfl⟩ := h
    exact step_read_target hturn ht (.inl hp)
  rcases hv with ⟨ho, rfl⟩ | ⟨ho, rfl⟩ | ⟨ho, rfl⟩ | ⟨ho, rfl⟩ | ⟨ho, rfl⟩ | ⟨ho, rfl⟩ | ⟨i, ho, hi, hcap, hbytes⟩ |
    ⟨k, ho, hk, hcap, hword⟩ | ⟨i, ho, hcap, hbytes⟩
  · exact ⟨_, accessTarget_reg _ (r := .cmd) ho, rfl⟩
  · exact ⟨_, accessTarget_reg _ (r := .status) ho, rfl⟩
  · exact ⟨_, accessTarget_reg _ (r := .arg0) ho, rfl⟩
  · exact ⟨_, accessTarget_reg _ (r := .arg1) ho, rfl⟩
  · exact ⟨_, accessTarget_reg _ (r := .arg2) ho, rfl⟩
  · exact ⟨_, accessTarget_reg _ (r := .res0) ho, rfl⟩
  · exact ⟨_, accessTarget_text _ halign ho hi hcap, Memory.readWord_of_written _ i _ hbytes⟩
  · exact ⟨_, accessTarget_word _ halign ho hk hcap, by simp [State.targetValue, hword]⟩
  · exact ⟨_, accessTarget_pcm _ halign ho hcap, Memory.readWord_of_written _ i _ hbytes⟩

/-- Settles O24: an unwritten word reads as the draw, and each lane of a byte transfer as its byte or its lane of the draw. -/
theorem unwrittenElementsReadAsTheDraw : Obligations.UnwrittenElementsReadAsTheDraw := by
  unfold Obligations.UnwrittenElementsReadAsTheDraw
  intro s off rest hturn hp halign
  have hstep {t : Target} (ht : accessTarget s.params off 4 = some t) := step_read_target hturn ht (.inl hp)
  refine ⟨fun k ho hk hcap hnone => ?word, fun i ho hi hcap => ?text, fun i ho hcap => ?pcm⟩
  case word =>
    have hvalue : s.targetValue (.word k) = Config.draw s.draws := by simp [State.targetValue, hnone]
    rw [hstep (accessTarget_word _ halign ho hk hcap), hvalue]
  case text =>
    exact ⟨_, hstep (accessTarget_text _ halign ho hi hcap), fun j hj => Memory.readWord_byte _ i _ hj⟩
  case pcm =>
    exact ⟨_, hstep (accessTarget_pcm _ halign ho hcap), fun j hj => Memory.readWord_byte _ i _ hj⟩

end Sys2Proof.Machine
end

section
/-! PROOFS. The last write (R63): element by element, what a host access covers, what each step writes, and that a read finds what
was written last. -/

namespace Sys2Proof.Machine

/-! ## What a host access covers (R51) -/

/-- The part of a transfer of `x` to or from bytes `i … i+3` that belongs to byte `j`. -/
def bytePart (x : Word) (i j : Nat) : Option Word :=
  if i ≤ j ∧ j < i + 4 then some ((x.extractLsb' (8 * (j - i)) 8).setWidth 32) else none

/-- The part of a transfer of `x` at a target that belongs to an element. -/
def Target.part (x : Word) : Target → Claims.Element → Option Word
  | .reg r, .reg r' => if r = r' then some x else none
  | .text i, .text j => bytePart x i j
  | .word k, .word k' => if k = k' then some x else none
  | .pcm i, .pcm j => bytePart x i j
  | _, _ => none

theorem regAt_regOffset (r : Reg) : regAt (regOffset r) = some r := by
  cases r <;> rfl

theorem regOffset_injective : Function.Injective regOffset := fun r r' h =>
  Option.some.inj ((regAt_regOffset r).symm.trans (h ▸ regAt_regOffset r'))

theorem regOffset_lt (r : Reg) : regOffset r < 0x18 := by
  cases r <;> decide

section
variable (x : Word) {off : Offset} (halign : off.toNat % 4 = 0)

theorem partOf_of_reg {r : Reg} (ho : off.toNat = regOffset r) (e : Claims.Element) :
    Claims.partOf off x e = (Target.reg r).part x e := by
  have hlt := regOffset_lt r
  cases e with
  | reg r' =>
    have hiff : regOffset r = regOffset r' ↔ r = r' := regOffset_injective.eq_iff
    simp only [Claims.partOf, Target.part, ho, hiff]
  | text j => exact if_neg (by omega)
  | word k => exact if_neg (by omega)
  | pcm j => exact if_neg (by omega)

include halign in
theorem partOf_of_text {i : Nat} (ho : off.toNat = 0x010000 + i) (hi : i < 0x10000) (e : Claims.Element) :
    Claims.partOf off x e = (Target.text i).part x e := by
  cases e with
  | reg r =>
    have hlt := regOffset_lt r
    exact if_neg (by omega)
  | text j =>
    have hcover : (j < 0x10000 ∧ 0x010000 + i ≤ 0x010000 + j ∧ 0x010000 + j < 0x010000 + i + 4) ↔ i ≤ j ∧ j < i + 4 := by
      omega
    simp only [Claims.partOf, Target.part, bytePart, ho, hcover, Nat.add_sub_add_left]
  | word k => exact if_neg (by omega)
  | pcm j => exact if_neg (by omega)

theorem partOf_of_word {k : Nat} (ho : off.toNat = 0x020000 + 4 * k) (hk : k < 0x4000) (e : Claims.Element) :
    Claims.partOf off x e = (Target.word k).part x e := by
  cases e with
  | reg r =>
    have hlt := regOffset_lt r
    exact if_neg (by omega)
  | text j => exact if_neg (by omega)
  | word k' =>
    have hcover : (k' < 0x4000 ∧ 0x020000 + 4 * k = 0x020000 + 4 * k') ↔ k = k' := by omega
    simp only [Claims.partOf, Target.part, ho, hcover]
  | pcm j => exact if_neg (by omega)

theorem partOf_of_pcm {i : Nat} (ho : off.toNat = 0x100000 + i) (e : Claims.Element) :
    Claims.partOf off x e = (Target.pcm i).part x e := by
  cases e with
  | reg r =>
    have hlt := regOffset_lt r
    exact if_neg (by omega)
  | text j => exact if_neg (by omega)
  | word k => exact if_neg (by omega)
  | pcm j =>
    have hcover : (0x100000 + i ≤ 0x100000 + j ∧ 0x100000 + j < 0x100000 + i + 4) ↔ i ≤ j ∧ j < i + 4 := by omega
    simp only [Claims.partOf, Target.part, bytePart, ho, hcover, Nat.add_sub_add_left]

end

/-- The elements an access covers are its target's. -/
theorem partOf_eq_part {p : Config.Params} {off : Offset} {size : Nat} {t : Target}
    (h : accessTarget p off size = some t) (x : Word) (e : Claims.Element) : Claims.partOf off x e = t.part x e := by
  obtain ⟨-, halign, hmap⟩ := accessTarget_some h
  rcases mapOffset_some hmap with ⟨r, rfl, ho⟩ | ⟨i, rfl, ho, hi, -⟩ | ⟨k, rfl, ho, hk, -⟩ | ⟨i, rfl, ho, -⟩
  · exact partOf_of_reg x ho e
  · exact partOf_of_text x halign ho hi e
  · rw [halign] at ho
    exact partOf_of_word x ho hk e
  · exact partOf_of_pcm x ho e

/-! ## What a host access stores and returns, element by element (R54, R55) -/

/-- The value of a byte element in bits 7:0; none for an unwritten byte. -/
def byteValue (m : Memory Byte) (j : Nat) : Option Word := (Memory.read m j).map (fun b => b.setWidth 32)

theorem byteValue_writeWord (m : Memory Byte) (i j : Nat) (x : Word) :
    byteValue (Memory.writeWord m i x) j = (bytePart x i j).or (byteValue m j) := by
  unfold byteValue bytePart
  by_cases hcover : i ≤ j ∧ j < i + 4
  · obtain ⟨d, rfl⟩ := Nat.exists_eq_add_of_le hcover.1
    rw [if_pos hcover, Memory.read_writeWord_inside m i x (by omega), Nat.add_sub_cancel_left]
    rfl
  · rw [if_neg hcover, Memory.read_writeWord_outside m i x (by omega), Option.none_or]

theorem bytePart_readWord {m : Memory Byte} {i j : Nat} {y v : Word} (d : Word) (hcover : bytePart y i j ≠ none)
    (hv : byteValue m j = some v) : bytePart (Memory.readWord m i d) i j = some v := by
  unfold bytePart at hcover ⊢
  by_cases hc : i ≤ j ∧ j < i + 4
  · obtain ⟨b, hb, rfl⟩ := Option.map_eq_some_iff.1 hv
    obtain ⟨n, rfl⟩ := Nat.exists_eq_add_of_le hc.1
    rw [if_pos hc, Nat.add_sub_cancel_left, Memory.readWord_byte m i d (by omega), hb, Option.getD_some]
  · exact absurd (if_neg hc) hcover

/-- What a host write in phase Ready writes to an element: its part of the transfer, or the STATUS of a command start
(R42, R54). -/
def Target.written (x : Word) (t : Target) (e : Claims.Element) : Option Word :=
  if t = .reg .cmd ∧ e = .reg .status then some 0x00000001#32 else t.part x e

theorem writeTarget_reg_buffers (s : State) (x : Word) (r : Reg) :
    (s.writeTarget x (.reg r)).textBuf = s.textBuf ∧ (s.writeTarget x (.reg r)).wordBuf = s.wordBuf ∧
    (s.writeTarget x (.reg r)).pcmBuf = s.pcmBuf := by
  cases r <;> exact ⟨rfl, rfl, rfl⟩

theorem valueOf_writeTarget_reg (s : State) (x : Word) {r : Reg} (hw : (Target.reg r).writable = true)
    (e : Claims.Element) :
    Claims.valueOf (s.writeTarget x (.reg r)) e = ((Target.reg r).written x e).or (Claims.valueOf s e) := by
  obtain ⟨htext, hword, hpcm⟩ := writeTarget_reg_buffers s x r
  cases e with
  | text j => simp [Claims.valueOf, Target.written, Target.part, htext]
  | word k => simp [Claims.valueOf, Target.written, Target.part, hword]
  | pcm j => simp [Claims.valueOf, Target.written, Target.part, hpcm]
  | reg r' =>
    by_cases hstart : r = .cmd ∧ r' = .status
    · obtain ⟨rfl, rfl⟩ := hstart
      exact congrArg some statusStarted_eq
    · have hpart : (Target.reg r).written x (.reg r') = if r = r' then some x else none := by
        simp [Target.written, Target.part, hstart]
      rw [hpart]
      by_cases hsame : r = r'
      · subst hsame
        rw [if_pos rfl, Claims.valueOf, writeTarget_reg_same s x hw, Option.some_or]
      · have hother := writeTarget_reg_of_ne s x (tgt := .reg r) (r := r') (by simpa using hsame)
          (fun hcmd hst => hstart ⟨by simpa using hcmd, hst⟩)
        rw [if_neg hsame, Option.none_or, Claims.valueOf, hother, Claims.valueOf]

theorem valueOf_writeTarget (s : State) (x : Word) {t : Target} (hw : t.writable = true) (e : Claims.Element) :
    Claims.valueOf (s.writeTarget x t) e = (t.written x e).or (Claims.valueOf s e) := by
  cases t with
  | reg r => exact valueOf_writeTarget_reg s x hw e
  | text i =>
    cases e with
    | text j => exact byteValue_writeWord s.textBuf i j x
    | reg r | word k | pcm j => rfl
  | word k =>
    cases e with
    | word k' =>
      have hpart : (Target.word k).written x (.word k') = if k = k' then some x else none := rfl
      rw [hpart]
      by_cases hk : k = k'
      · subst hk
        rw [if_pos rfl]
        exact Memory.read_write_same s.wordBuf k x
      · rw [if_neg hk]
        exact Memory.read_write_other s.wordBuf x (Ne.symm hk)
    | reg r | text j | pcm j => rfl
  | pcm i =>
    cases e with
    | pcm j => exact byteValue_writeWord s.pcmBuf i j x
    | reg r | text j | word k => rfl

/-- A read returns the value of every written element it covers (R55). -/
theorem part_targetValue {s : State} {t : Target} {e : Claims.Element} {y v : Word} (hcover : t.part y e ≠ none)
    (hv : Claims.valueOf s e = some v) : t.part (s.targetValue t) e = some v := by
  cases t with
  | reg r =>
    cases e with
    | reg r' =>
      by_cases hr : r = r'
      · subst hr
        exact (if_pos rfl).trans hv
      · exact absurd (if_neg hr) hcover
    | text j | word k | pcm j => exact absurd rfl hcover
  | text i =>
    cases e with
    | text j => exact bytePart_readWord _ hcover hv
    | reg r | word k | pcm j => exact absurd rfl hcover
  | word k =>
    cases e with
    | word k' =>
      by_cases hk : k = k'
      · subst hk
        have hread : Memory.read s.wordBuf k = some v := hv
        simp [Target.part, State.targetValue, hread]
      · exact absurd (if_neg hk) hcover
    | reg r | text j | pcm j => exact absurd rfl hcover
  | pcm i =>
    cases e with
    | pcm j => exact bytePart_readWord _ hcover hv
    | reg r | text j | word k => exact absurd rfl hcover

/-! ## What a completion writes (R43, R61) -/

theorem read_overwrite_eq_or {α : Type} (m : Memory α) (vs : List α) (k : Nat) :
    Memory.read (Memory.overwrite m vs) k = (vs[k]?).or (Memory.read m k) := by
  rcases Nat.lt_or_ge k vs.length with hk | hk
  · rw [Memory.read_overwrite_of_lt m hk, List.getElem?_eq_getElem hk, Option.some_or]
  · rw [Memory.read_overwrite_of_ge m hk, List.getElem?_eq_none hk, Option.none_or]

/-- STATUS of an error: the code in bits 11:8, with DONE and ERR (R23, R43). -/
theorem statusCompleted_eq_shifted_code (c : ErrCode) :
    statusCompleted c.code = c.code.setWidth 32 <<< 8 ||| 0x00000006#32 := by
  cases c <;> decide

theorem valueOf_completeOk (s : State) (res : Option Word) (w : Writes) (e : Claims.Element) :
    Claims.valueOf (s.completeOk res w) e = (Claims.completionWrite (.ok res w) e).or (Claims.valueOf s e) := by
  cases e with
  | reg r =>
    cases r
    case res0 => cases res <;> rfl
    case status => exact congrArg some statusCompleted_ok
    all_goals rfl
  | text j => rfl
  | word k => exact read_overwrite_eq_or s.wordBuf w.words k
  | pcm j =>
    have hread := congrArg (Option.map fun b : Byte => b.setWidth 32) (read_overwrite_eq_or s.pcmBuf w.pcm j)
    rwa [Option.map_or] at hread

theorem valueOf_completeErr (s : State) (c : ErrCode) (e : Claims.Element) :
    Claims.valueOf (s.completeErr c) e = (Claims.completionWrite (.err c) e).or (Claims.valueOf s e) := by
  cases e with
  | reg r =>
    cases r
    case status => exact congrArg some (statusCompleted_eq_shifted_code c)
    all_goals rfl
  | text j | word k | pcm j => rfl

theorem valueOf_applyResult (s : State) (r : Result) (e : Claims.Element) :
    Claims.valueOf (s.applyResult r) e = (Claims.completionWrite r e).or (Claims.valueOf s e) := by
  cases r with
  | ok res w => exact valueOf_completeOk s res w e
  | err c => exact valueOf_completeErr s c e
  | uninitRead => rfl

/-! ## What a step writes -/

theorem valueOf_congr {s t : State} (hreg : ∀ r, t.reg r = s.reg r) (htext : t.textBuf = s.textBuf)
    (hword : t.wordBuf = s.wordBuf) (hpcm : t.pcmBuf = s.pcmBuf) (e : Claims.Element) :
    Claims.valueOf t e = Claims.valueOf s e := by
  cases e <;> simp only [Claims.valueOf, hreg, htext, hword, hpcm]

/-- The Core's turn in phase Ready writes no element. -/
theorem not_writes_of_pass {s : State} {q : List Event} (hq : CoreMoves s q) (hp : s.phase = .ready) (e : Claims.Element)
    (v : Word) : ¬ Claims.Writes s e v := by
  rintro (⟨off, x, rest, hs, -⟩ | ⟨op, a0, a1, a2, hbusy, -⟩)
  · rcases hq with ⟨hnil, -⟩ | hcore
    · rw [hnil] at hs
      cases hs
    · rw [hcore] at hs
      cases hs
  · rw [hp] at hbusy
    cases hbusy

/-- A host access that is no legal write in phase Ready writes no element. -/
theorem not_writes_of_access {s : State} {ev : Event} {rest : List Event} (hs : s.schedule = ev :: rest)
    (hcore : ev ≠ .core) (hwrite : ∀ off x, ev = .write off 4 x → s.phase = .ready →
      Claims.BreaksBusRule s.params off 4 true) (e : Claims.Element) (v : Word) : ¬ Claims.Writes s e v := by
  rintro (⟨off, x, rest', hs', hp, hrule, -⟩ | ⟨op, a0, a1, a2, -, hs' | ⟨rest', hs'⟩, -⟩)
  all_goals
    rw [hs] at hs'
    cases hs'
  · exact hrule (hwrite off x rfl hp)
  · exact hcore rfl

theorem Event.Reaches.ne_core {p : Config.Params} {ev : Event} {t : Option Target} (h : ev.Reaches p t) : ev ≠ .core := by
  rintro rfl
  exact h

theorem Target.written_eq_some_iff {x v : Word} {t : Target} {e : Claims.Element} : t.written x e = some v ↔
    t.part x e = some v ∨ (t = .reg .cmd ∧ e = .reg .status ∧ v = 0x00000001#32) := by
  unfold Target.written
  by_cases hstart : t = .reg .cmd ∧ e = .reg .status
  · obtain ⟨rfl, rfl⟩ := hstart
    simp [Target.part, eq_comm]
  · rw [if_neg hstart]
    tauto

theorem Target.offset_eq_zero_iff {t : Target} : t.offset = 0 ↔ t = .reg .cmd := by
  cases t with
  | reg r => cases r <;> decide
  | text i | word k | pcm i => simp [Target.offset, textBase, wordBase, pcmBase]

theorem writes_hostWrite_iff {s : State} {off : Offset} {x : Word} {rest : List Event} {t : Target} {e : Claims.Element}
    {v : Word} (hs : s.schedule = .write off 4 x :: rest) (hp : s.phase = .ready)
    (ht : writeTargetOf s.params off 4 = some t) : Claims.Writes s e v ↔ t.written x e = some v := by
  obtain ⟨haccess, -⟩ := writeTargetOf_some ht
  have hrule : ¬ Claims.BreaksBusRule s.params off 4 true := by simp [← writeTargetOf_eq_none_iff, ht]
  have hoff : off = 0#21 ↔ t = .reg .cmd := by
    rw [← Target.offset_eq_zero_iff, ← toNat_eq_offset_of_accessTarget haccess, ← BitVec.toNat_inj, BitVec.toNat_zero]
  rw [Target.written_eq_some_iff, ← partOf_eq_part haccess, ← hoff]
  constructor
  · rintro (⟨off', x', rest', hs', -, -, hv⟩ | ⟨op, a0, a1, a2, hbusy, -⟩)
    · rw [hs] at hs'
      cases hs'
      exact hv
    · rw [hp] at hbusy
      cases hbusy
  · exact fun hv => .inl ⟨off, x, rest, hs, hp, hrule, hv⟩

theorem writes_completion_iff {s : State} {op a0 a1 a2 : Word} {e : Claims.Element} {v : Word}
    (hp : s.phase = .busy op a0 a1 a2) (hs : s.schedule = [] ∨ ∃ rest, s.schedule = .core :: rest) :
    Claims.Writes s e v ↔ Claims.completionWrite (Claims.outcome s op a0 a1 a2) e = some v := by
  constructor
  · rintro (⟨off, x, rest, -, hready, -⟩ | ⟨op', b0, b1, b2, hp', -, hv⟩)
    · rw [hp] at hready
      cases hready
    · rw [hp] at hp'
      cases hp'
      exact hv
  · exact fun hv => .inr ⟨op, a0, a1, a2, hp, hs, hv⟩

/-- What a step does to an element, but for reset: it holds what the step writes to it, if it writes to it, and what it held. -/
theorem valueOf_step {s t : State} (hstep : step s = .next t) (hreset : ∀ rest, s.schedule ≠ .reset :: rest)
    (e : Claims.Element) : ∃ o, (∀ v, Claims.Writes s e v ↔ o = some v) ∧
      Claims.valueOf t e = o.or (Claims.valueOf s e) := by
  have hnone (h : ∀ v, ¬ Claims.Writes s e v) (v : Word) : Claims.Writes s e v ↔ (none : Option Word) = some v :=
    iff_of_false (h v) (Option.some_ne_none v).symm
  have hsched (q : List Event) : Claims.valueOf { s with schedule := q } e = Claims.valueOf s e :=
    valueOf_congr (fun r => by cases r <;> rfl) rfl rfl rfl e
  cases stepTo_of_step hstep with
  | reset hs => exact absurd hs (hreset _)
  | pass hq hm hp => exact ⟨none, hnone (not_writes_of_pass hq hp e), hsched _⟩
  | @complete q op a0 a1 a2 hq hout =>
    obtain ⟨-, hp⟩ := hout
    refine ⟨_, fun v => writes_completion_iff hp hq.schedule_eq, ?_⟩
    rw [valueOf_applyResult, hsched]
  | @busFault ev rest hturn ht =>
    obtain ⟨-, hs⟩ := hturn
    have hrule (off x) (hev : ev = .write off 4 x) (_ : s.phase = .ready) :
        Claims.BreaksBusRule s.params off 4 true := by
      subst hev
      exact (writeTargetOf_eq_none_iff ..).1 ht
    exact ⟨none, hnone (not_writes_of_access hs ht.ne_core hrule e),
      valueOf_congr (fun r => by cases r <;> rfl) rfl rfl rfl e⟩
  | protocolFault hturn ht hb =>
    obtain ⟨-, hs⟩ := hturn
    have hready (hp : s.phase = .ready) : False := by
      rw [State.isBusy_eq_false hp] at hb
      cases hb
    exact ⟨none, hnone (not_writes_of_access hs ht.ne_core (fun _ _ _ hp => (hready hp).elim) e),
      valueOf_congr (fun r => by cases r <;> rfl) rfl rfl rfl e⟩
  | read hturn ht hok =>
    obtain ⟨-, hs⟩ := hturn
    exact ⟨none, hnone (not_writes_of_access hs (fun h => by cases h) (fun _ _ h => by cases h) e),
      valueOf_congr (fun r => by cases r <;> rfl) rfl rfl rfl e⟩
  | @write off size x rest tgt hturn hp ht =>
    obtain ⟨-, hs⟩ := hturn
    obtain ⟨haccess, hw⟩ := writeTargetOf_some ht
    obtain ⟨rfl, -⟩ := accessTarget_some haccess
    refine ⟨_, fun v => writes_hostWrite_iff hs hp ht, ?_⟩
    rw [valueOf_writeTarget _ x hw, hsched]

theorem schedule_ne_reset_of_writes {s : State} {e : Claims.Element} {v : Word} (h : Claims.Writes s e v)
    (rest : List Event) : s.schedule ≠ .reset :: rest := by
  intro hreset
  rcases h with ⟨off, x, rest', hs, -⟩ | ⟨op, a0, a1, a2, -, hs | ⟨rest', hs⟩, -⟩
  all_goals
    rw [hreset] at hs
    cases hs

theorem valueOf_of_writes {s t : State} {e : Claims.Element} {v : Word} (hstep : step s = .next t)
    (h : Claims.Writes s e v) : Claims.valueOf t e = some v := by
  obtain ⟨o, hwrites, hvalue⟩ := valueOf_step hstep (schedule_ne_reset_of_writes h) e
  rw [hvalue, (hwrites v).1 h, Option.some_or]

theorem valueOf_of_not_writes {s t : State} {e : Claims.Element} (hstep : step s = .next t)
    (hreset : ∀ rest, s.schedule ≠ .reset :: rest) (h : ∀ v, ¬ Claims.Writes s e v) :
    Claims.valueOf t e = Claims.valueOf s e := by
  obtain ⟨o, hwrites, hvalue⟩ := valueOf_step hstep hreset e
  have ho : o = none := Option.eq_none_iff_forall_ne_some.2 fun v hv => h v ((hwrites v).2 hv)
  rw [hvalue, ho, Option.none_or]

/-! ## Steps in between -/

theorem step_of_core_run_succ {k : Nat} {t u : State} (h : Sys2Proof.core.run (k + 1) t = .next u) :
    ∃ t', step t = .next t' ∧ Sys2Proof.core.run k t' = .next u := by
  cases hstep : step t with
  | next t' => exact ⟨t', rfl, (core_run_succ hstep).symm.trans h⟩
  | fault r =>
    have hcore : Sys2Proof.core.step t = .fault r := hstep
    simp only [Host.Core.run, hcore] at h
    cases h
  | refused r =>
    have hcore : Sys2Proof.core.step t = .refused r := hstep
    simp only [Host.Core.run, hcore] at h
    cases h

/-- Steps that neither reset nor write an element keep its value. -/
theorem valueOf_run {k : Nat} {t u : State} {e : Claims.Element} (hrun : Sys2Proof.core.run k t = .next u)
    (hquiet : ∀ j w, j < k → Sys2Proof.core.run j t = .next w →
      (∀ r, w.schedule ≠ .reset :: r) ∧ ∀ v, ¬ Claims.Writes w e v) :
    Claims.valueOf u e = Claims.valueOf t e := by
  induction k generalizing t with
  | zero =>
    cases hrun
    rfl
  | succ k ih =>
    obtain ⟨t', hstep, hrun'⟩ := step_of_core_run_succ hrun
    obtain ⟨hreset, hwrites⟩ := hquiet 0 t k.succ_pos (core_run_zero t)
    have hrest := ih hrun' fun j w hj hw => hquiet (j + 1) w (Nat.succ_lt_succ hj) ((core_run_succ hstep).trans hw)
    rw [hrest, valueOf_of_not_writes hstep hreset hwrites]

/-! ## The read -/

/-- What was written to a target reads back from it. -/
theorem targetValue_writeTarget (s : State) (v : Word) {t : Target} (hw : t.writable = true) :
    (s.writeTarget v t).targetValue t = v := by
  cases t with
  | reg r => exact writeTarget_reg_same s v hw
  | text i => exact Memory.readWord_of_written _ i _ fun j hj => Memory.read_writeWord_inside _ i v hj
  | word k => simp [State.targetValue, State.writeTarget, Memory.read_write_same]
  | pcm i => exact Memory.readWord_of_written _ i _ fun j hj => Memory.read_writeWord_inside _ i v hj

/-- A read directly after a write to the same offset, CMD's apart, returns the value written. -/
theorem read_after_write {s : State} {off : Offset} {v : Word} {rest : List Event} (hm : s.faultMark = none)
    (hs : s.schedule = .write off 4 v :: .read off 4 :: rest) (hp : s.phase = .ready) (hoff : off.toNat ≠ 0)
    (hrule : ¬ Claims.BreaksBusRule s.params off 4 true) :
    ∃ t u, step s = .next t ∧ step t = .next u ∧ u.readData = some v ∧ u.faultMark = none ∧ u.schedule = rest := by
  rw [← writeTargetOf_eq_none_iff] at hrule
  obtain ⟨tgt, ht⟩ := Option.ne_none_iff_exists'.1 hrule
  obtain ⟨haccess, hw⟩ := writeTargetOf_some ht
  have hcmd : tgt ≠ .reg .cmd := by rwa [Ne, ← Target.offset_eq_zero_iff, ← toNat_eq_offset_of_accessTarget haccess]
  have hwritten := targetValue_writeTarget { s with schedule := .read off 4 :: rest } v hw
  have hready := writeTarget_phase { s with schedule := .read off 4 :: rest } v hcmd
  obtain ⟨hparams, -, hmark, hsched, -⟩ := writeTarget_frame { s with schedule := .read off 4 :: rest } v tgt
  have hstep := step_write_ready ⟨hm, hs⟩ hp ht
  have hread := step_read_target ⟨hmark.trans hm, hsched⟩ (hparams ▸ haccess) (.inl (hready.trans hp))
  exact ⟨_, _, hstep, hread, congrArg some hwritten, hmark.trans hm, rfl⟩

/-- Settles O25: an element holds what a step writes to it, keeps it through every step that does not write it, and shows it in
its part of a read. -/
theorem hostReadReturnsTheLastWrite : Obligations.HostReadReturnsTheLastWrite := by
  unfold Obligations.HostReadReturnsTheLastWrite
  refine ⟨fun s off v rest hm hs hp hoff hrule => read_after_write hm hs hp hoff hrule, ?_⟩
  intro s t u k e v off rest hstep hwrites hrun hquiet hturn hphase hrule hcover
  have hvalue : Claims.valueOf u e = some v := (valueOf_run hrun hquiet).trans (valueOf_of_writes hstep hwrites)
  rw [← accessTarget_eq_none_iff] at hrule
  obtain ⟨tgt, ht⟩ := Option.ne_none_iff_exists'.1 hrule
  have hok : u.phase = .ready ∨ tgt = .reg .status := hphase.imp_right fun ho =>
    Option.some.inj (ht.symm.trans (accessTarget_reg u.params (r := .status) ho))
  rw [partOf_eq_part ht] at hcover
  exact ⟨u.targetValue tgt, step_read_target hturn ht hok, (partOf_eq_part ht ..).trans (part_targetValue hcover hvalue)⟩

end Sys2Proof.Machine
end

section
/-! PROOFS. The CRC is the only remainder (R101): the long division takes a multiple of the generator to 0, and leaves a degree
below 10 alone. -/

namespace Sys2Proof.Machine

theorem xorSum_eq_zero {w v : Nat} (n : Nat) (q : BitVec w) {f : Nat → BitVec v} (hf : ∀ k, k < n → f k = 0#v) :
    xorSum n q f = 0#v := by
  induction n with
  | zero => exact xorSum_zero q f
  | succ n ih =>
    have hrest := ih fun k hk => hf k (Nat.lt_succ_of_lt hk)
    rw [xorSum_succ, hrest, hf n n.lt_succ_self, BitVec.xor_zero, ite_self]

theorem crcDivide_gen_shiftLeft {k : Nat} (hk : k < 21) : crcDivide 21 (Config.gen <<< k) = 0#31 := by
  revert k
  decide +kernel

/-- Dividing a multiple of the generator leaves nothing. -/
theorem crcDivide_timesGen (q : BitVec 21) : crcDivide 21 (Claims.timesGen q) = 0#31 := by
  rw [timesGen_eq_xorSum, map_xorSum (crcDivide_xor 21)]
  exact xorSum_eq_zero 21 q fun k => crcDivide_gen_shiftLeft

/-- A dividend of degree below 10 is its own remainder. -/
theorem crcDivide_of_degreeBelow (n : Nat) {d : BitVec 31} (h : DegreeBelow 10 d) : crcDivide n d = d := by
  induction n with
  | zero => rfl
  | succ n ih =>
    have hround : crcRound n d = d := by simp [crcRound, h (n + 10) (Nat.le_add_left 10 n)]
    rw [crcDivide_succ, hround, ih]

theorem degreeBelow_setWidth (r : BitVec 10) : DegreeBelow 10 (r.setWidth 31) := by
  intro i hi
  simp [BitVec.getLsbD_of_ge r i hi]

theorem eq_crc_of_isRemainder {m : BitVec 21} {r : BitVec 10} (h : Claims.IsRemainder m r) : r = crc m := by
  obtain ⟨q, hq⟩ := h
  rw [crc, hq, crcDivide_xor, crcDivide_timesGen, crcDivide_of_degreeBelow 21 (degreeBelow_setWidth r), BitVec.zero_xor,
    BitVec.setWidth_setWidth_of_le r (show 10 ≤ 31 by decide), BitVec.setWidth_eq]

/-- Settles O40: the division is linear and takes the multiple of the generator in `m·x^10` to 0, so it leaves the remainder. -/
theorem crcIsTheUniqueRemainder : Obligations.CrcIsTheUniqueRemainder := by
  unfold Obligations.CrcIsTheUniqueRemainder
  intro m r
  refine ⟨eq_crc_of_isRemainder, ?_⟩
  rintro rfl
  exact isRemainder_crc m

end Sys2Proof.Machine
end

section
/-! PROOFS. The framer's phase lengths (R167), the resampling index (R195), the opcode table's words (R80, R81) and the constant
words (R92–R94). -/

namespace Sys2Proof.Machine

/-! ## The framer's phases -/

/-- Settles O51: `pack`'s counts give the body's length and the last batch position, and the words after the preamble fill whole
batches. -/
theorem framerPhaseLengthsAreCountDriven : Obligations.FramerPhaseLengthsAreCountDriven := by
  unfold Obligations.FramerPhaseLengthsAreCountDriven
  intro a chars off n hoff hn
  obtain rfl : off = addressOffset a := hoff.trans (addressOffset_eq a).symm
  subst hn
  have ho : addressOffset a + 1 ≤ 15 := Nat.succ_le_succ (addressOffset_le a)
  have hpos : (messageBody a chars).2 = (addressOffset a + 1 + Claims.messageCount chars.length) % 16 :=
    pack_pos_eq ho chars
  refine ⟨List.length_replicate, List.length_replicate, rfl, pack_length ho chars, rfl, ?padding, ?batches⟩
  case padding =>
    rw [framerWords, List.length_replicate, hpos, Config.batchSize]
    omega
  case batches =>
    obtain ⟨b, -, hb⟩ := batchPart_length_eq_batches a chars
    rw [encodeTransmission_length, hb]
    omega

/-! ## The resampling index -/

theorem repeatsPerBit_pos {baud : Nat} (hdvd : Config.symbolRate % baud = 0) : 0 < repeatsPerBit baud := by
  have hrate : baud * repeatsPerBit baud = Config.symbolRate := Nat.mul_div_cancel' (Nat.dvd_of_mod_eq_zero hdvd)
  exact Nat.pos_of_mul_pos_left (hrate ▸ (by decide : 0 < Config.symbolRate))

/-- Settles O53: the index falls in the run of a bit that exists, and each bit's run has `R` samples. -/
theorem resamplingIndexIsInRange : Obligations.ResamplingIndexIsInRange := by
  unfold Obligations.ResamplingIndexIsInRange
  refine ⟨rfl, fun words sr baud i _ hbaud hdvd hi => ⟨rfl, ?_⟩⟩
  have hbit := resampledBit_lt hbaud hi
  rwa [← resampledBit_eq hdvd, Nat.div_lt_iff_lt_mul (repeatsPerBit_pos hdvd)] at hbit

/-! ## Command words and constant words -/

theorem decode_encode (i : Instr) : decode (encode i) = .instr i := (decode_eq_instr_iff _ i).2 rfl

/-- Settles O2: a word decodes to the command whose encoding it is, and the table's decoder is the decoder on 32-bit numbers. -/
theorem decodeOfEncodeIsTheCommand : Obligations.DecodeOfEncodeIsTheCommand := by
  unfold Obligations.DecodeOfEncodeIsTheCommand
  intro i _
  have hfit : (encode i).toNat % 2 ^ 32 = (encode i).toNat := Nat.mod_eq_of_lt (encode i).isLt
  refine ⟨decode_encode i, ?_⟩
  rw [decodeTableWord, hfit, if_pos (encode i).isLt, BitVec.ofNat_toNat, BitVec.setWidth_eq, decode_encode]
  rfl

/-- Settles O3: the six words are encodings, and the other two break a field each. -/
theorem opcodeTableWordsDecode : Obligations.OpcodeTableWordsDecode := by
  unfold Obligations.OpcodeTableWordsDecode
  exact ⟨decode_encode .nop, decode_encode .crc, decode_encode .enccw, decode_encode .encascii, decode_encode .enctx,
    decode_encode .pcmenc, by decide, by decide⟩

theorem sync_eq_encodeCodeword : Config.sync = encodeCodeword 0x0F9A42#21 := (validCodeword_iff _).1 validCodeword_sync

theorem idle_eq_encodeCodeword : Config.idle = encodeCodeword 0x0F5138#21 := (validCodeword_iff _).1 validCodeword_idle

/-- Settles O45: SYNC and IDLE are the codewords of their payloads, so their CRC fields are the CRCs; the preamble word's CRC field
is not its payload's CRC. -/
theorem constantWordsAreAsComputed : Obligations.ConstantWordsAreAsComputed := by
  unfold Obligations.ConstantWordsAreAsComputed
  have hsyncCrc : crc 0x0F9A42#21 = 0x2EC#10 := by
    rw [← codewordCrc_encodeCodeword, ← sync_eq_encodeCodeword]
    rfl
  have hidleCrc : crc 0x0F5138#21 = 0x0CB#10 := by
    rw [← codewordCrc_encodeCodeword, ← idle_eq_encodeCodeword]
    rfl
  have hpreambleCrc : crc 0x155555#21 = 0x38D#10 := by decide +kernel
  have hpreamble : validCodeword Config.preambleWord = false := by
    rw [Bool.eq_false_iff, Ne, validCodeword_iff, eq_encodeCodeword_iff]
    rintro ⟨hcrc, -⟩
    exact absurd (hcrc.trans hpreambleCrc) (by decide)
  exact ⟨rfl, sync_eq_encodeCodeword, hsyncCrc, rfl, rfl, by decide, rfl, idle_eq_encodeCodeword, hidleCrc, rfl, rfl,
    by decide, by decide, rfl, rfl, hpreamble, rfl, hpreambleCrc⟩

end Sys2Proof.Machine
end
